-- ==== Sys2Proof/Word.lean ====
section
/-!
DEFINITION. The words, the enumerations of R10 and the families indexed by them.
A button, a display or a player is an enumeration, so an index out of range cannot be written down; a family
`PerButton α` holds one `α` for each button, as plain data.
-/

namespace Sys2Proof

/-- A command word (R81). -/
abbrev Word := BitVec 32

/-- A segment pattern (R16, R29) or a response (R85). -/
abbrev Byte := BitVec 8

/-- R10: `p1` = 0, `p2` = 1. -/
inductive Player where
  | p1
  | p2
deriving DecidableEq, Repr

/-- R10: the game mode, `to_11` = 0, `to_21` = 1 (never a privilege mode, R239). -/
inductive Mode where
  | to11
  | to21
deriving DecidableEq, Repr

/-- R10: a classified button state, `released` = 0, `pressed` = 1. -/
inductive Level where
  | released
  | pressed
deriving DecidableEq, Repr

/-- R10: what a sample reports, `None` = 0, `Pressed` = 1, `Released` = 2; the code 3 does not exist (U5). -/
inductive Edge where
  | none
  | pressed
  | released
deriving DecidableEq, Repr

/-- R10: the five buttons in the fixed order of R212; the names are those of R89. -/
inductive Button where
  | mode
  | fs
  | undo
  | p1
  | p2
deriving DecidableEq, Repr

/-- R10: the four displays, live scores of p1 and p2 and games won of p1 and p2; the names are those of R89. -/
inductive Display where
  | s1
  | s2
  | g1
  | g2
deriving DecidableEq, Repr

/-- One `α` for each player. -/
structure PerPlayer (α : Type) where
  p1 : α
  p2 : α
deriving DecidableEq, Repr

/-- One `α` for each button. -/
structure PerButton (α : Type) where
  mode : α
  fs : α
  undo : α
  p1 : α
  p2 : α
deriving DecidableEq, Repr

/-- One `α` for each display. -/
structure PerDisplay (α : Type) where
  s1 : α
  s2 : α
  g1 : α
  g2 : α
deriving DecidableEq, Repr

end Sys2Proof
end

