-- ==== Sys2Proof/Syntax.lean ====
section
/-!
DEFINITION. The fourteen operations (R14), one constructor per row of the opcode map of R84, and the names of the
reasons for which a word is reserved (R86). Register numbers and operation codes are gone here: only Decode.lean
knows bits.
-/

namespace Sys2Proof

/-- One operation with its operands (R82, R83). A `value`, a `dp` and a `digit` are integers as R83 has them; that
they fit their fields is WellFormed's check. -/
inductive Instr where
  /-- `NOP` (R210). -/
  | nop
  /-- `DB.SAMPLE b, raw` (R112). -/
  | dbSample (b : Button) (raw : Bool)
  /-- `DB.QUERY b` (R116). -/
  | dbQuery (b : Button)
  /-- `SEG.ENC d` (R133). -/
  | segEnc (d : BitVec 4)
  /-- `RND.DEC u, value, dp` (R148). -/
  | rndDec (u : Display) (value : Nat) (dp : Option Nat)
  /-- `RND.HEX u, value, dp` (R149). -/
  | rndHex (u : Display) (value : Nat) (dp : Option Nat)
  /-- `RND.CUSTOM u, pattern, digit` (R152). -/
  | rndCustom (u : Display) (pattern : Byte) (digit : Nat)
  /-- `SC.SERVE` (R174). -/
  | scServe
  /-- `SC.POINT p` (R180). -/
  | scPoint (p : Player)
  /-- `SC.UNDO` (R190). -/
  | scUndo
  /-- `SC.SETMODE m` (R192). -/
  | scSetMode (m : Mode)
  /-- `SC.SETFS p` (R194). -/
  | scSetFs (p : Player)
  /-- `ITER raw[4:0]` (R212); bit b is the raw sample of button b. -/
  | iter (raw : BitVec 5)
  /-- `REFRESH` (R211). -/
  | refresh
deriving DecidableEq, Repr

/-- The mnemonics of R84. -/
def Instr.mnemonic : Instr → String
  | .nop => "NOP"
  | .dbSample _ _ => "DB.SAMPLE"
  | .dbQuery _ => "DB.QUERY"
  | .segEnc _ => "SEG.ENC"
  | .rndDec _ _ _ => "RND.DEC"
  | .rndHex _ _ _ => "RND.HEX"
  | .rndCustom _ _ _ => "RND.CUSTOM"
  | .scServe => "SC.SERVE"
  | .scPoint _ => "SC.POINT"
  | .scUndo => "SC.UNDO"
  | .scSetMode _ => "SC.SETMODE"
  | .scSetFs _ => "SC.SETFS"
  | .iter _ => "ITER"
  | .refresh => "REFRESH"

/-- Why a word is reserved, one name for each clause of R86. Which name a word with several faults gets is the
model's own (log 16); that it is reserved is R86's. -/
inductive ReservedReason where
  /-- `op` is 0xE or 0xF. -/
  | unassignedOp
  /-- `unit` is nonzero for a unit-less format, above 4 for a button, above 3 for a display. -/
  | unitOutOfRange
  /-- a must-be-zero bit of `arg` is 1. -/
  | mustBeZero
  /-- `dp_en = 0` with `dp_idx != 0`. -/
  | pointIndexWithoutEnable
deriving DecidableEq, Repr

end Sys2Proof
end

