-- ==== Sys2Proof/WellFormed.lean ====
section
/-!
DEFINITION. Which terms of Syntax.lean a command word can spell (R82, R83): the value of a render is 16 bits, a
decimal-point index and a digit are 4 bits. Every other operand is in range by its type.
-/

namespace Sys2Proof

/-- R83: "`value` is an integer 0..65535", the whole field, whatever `VALUE_W` (log 18). -/
abbrev valueFits (value : Nat) : Bool := value < 65536

/-- R83: "`dp = dp_idx` (0..15)", or none. -/
abbrev pointFits (dp : Option Nat) : Bool := dp.all (· < 16)

/-- R83: "`digit` is an integer 0..15". -/
abbrev digitFits (digit : Nat) : Bool := digit < 16

/-- The well-formed instructions: those a command word spells. -/
def Instr.wellFormed : Instr → Bool
  | .nop => true
  | .dbSample _ _ => true
  | .dbQuery _ => true
  | .segEnc _ => true
  | .rndDec _ value dp => valueFits value && pointFits dp
  | .rndHex _ value dp => valueFits value && pointFits dp
  | .rndCustom _ _ digit => digitFits digit
  | .scServe => true
  | .scPoint _ => true
  | .scUndo => true
  | .scSetMode _ => true
  | .scSetFs _ => true
  | .iter _ => true
  | .refresh => true

end Sys2Proof
end

