-- ==== Sys2Proof/Decode.lean ====
section
/-!
DEFINITION. The decoder, total on all 2^32 words (R86: "its verdict is one of the fourteen operations or
`reserved`"), and after it the encoder, both from the formats of R81 and R82. The opcode map of R84 stands at the
end as a table of matches and masks; the statements compare the decoder with it.
-/

namespace Sys2Proof

/-- The verdict on a command word. -/
inductive Decoded where
  | op (i : Instr)
  | reserved (why : ReservedReason)
deriving DecidableEq, Repr

/-! ## Fields (R81, R82) -/

/-- `op = cmd[31:28]`. -/
def opField (w : Word) : BitVec 4 := w.extractLsb' 28 4

/-- `unit = cmd[27:24]`. -/
def unitField (w : Word) : BitVec 4 := w.extractLsb' 24 4

/-- `arg = cmd[23:0]`. -/
def argField (w : Word) : BitVec 24 := w.extractLsb' 0 24

/-- R10: the button a `unit` names; none above 4. -/
def buttonOfUnit (unit : BitVec 4) : Option Button :=
  match unit.toNat with
  | 0 => some .mode
  | 1 => some .fs
  | 2 => some .undo
  | 3 => some .p1
  | 4 => some .p2
  | _ => none

/-- R10: the display a `unit` names; none above 3. -/
def displayOfUnit (unit : BitVec 4) : Option Display :=
  match unit.toNat with
  | 0 => some .s1
  | 1 => some .s2
  | 2 => some .g1
  | 3 => some .g2
  | _ => none

/-- R10: the player a one-bit field names. -/
def playerOfBit : Bool → Player
  | false => .p1
  | true => .p2

/-- R10: the mode a one-bit field names. -/
def modeOfBit : Bool → Mode
  | false => .to11
  | true => .to21

/-! ## Formats (R82): the unit is checked first, then the must-be-zero bits of `arg` -/

/-- A format that acts on no unit: `unit` must be 0. -/
def withoutUnit (unit : BitVec 4) (d : Decoded) : Decoded :=
  if unit = 0#4 then d else .reserved .unitOutOfRange

/-- A format that acts on a button. -/
def withButton (unit : BitVec 4) (k : Button → Decoded) : Decoded :=
  match buttonOfUnit unit with
  | some b => k b
  | none => .reserved .unitOutOfRange

/-- A format that acts on a display. -/
def withDisplay (unit : BitVec 4) (k : Display → Decoded) : Decoded :=
  match displayOfUnit unit with
  | some u => k u
  | none => .reserved .unitOutOfRange

/-- A field of `n` bits at the bottom of `arg`, every bit above it must be zero (formats Z, B, Q, D, P, I). -/
def lowField (n : Nat) (arg : BitVec 24) (k : BitVec n → Decoded) : Decoded :=
  if arg.toNat < 2 ^ n then k (arg.extractLsb' 0 n) else .reserved .mustBeZero

/-- Format R: `dp_en = arg[23]`, `dp_idx = arg[19:16]`, `value = arg[15:0]`, bits 22:20 must be zero; with
`dp_en = 0` the index must be 0 (R83). The whole value field is read, whatever `VALUE_W`; what a value past it shows is
Operands.lean's `commandValue` (log 18). -/
def renderOperands (arg : BitVec 24) (k : Nat → Option Nat → Instr) : Decoded :=
  if arg.extractLsb' 20 3 = 0#3 then
    if arg.getLsbD 23 then .op (k (arg.extractLsb' 0 16).toNat (some (arg.extractLsb' 16 4).toNat))
    else if arg.extractLsb' 16 4 = 0#4 then .op (k (arg.extractLsb' 0 16).toNat none)
    else .reserved .pointIndexWithoutEnable
  else .reserved .mustBeZero

/-- Format C: `digit = arg[11:8]`, `pattern = arg[7:0]`, bits 23:12 must be zero. -/
def customOperands (arg : BitVec 24) (k : Byte → Nat → Instr) : Decoded :=
  if arg.extractLsb' 12 12 = 0#12 then .op (k (arg.extractLsb' 0 8) (arg.extractLsb' 8 4).toNat)
  else .reserved .mustBeZero

/-- R84: the operation is selected by `op` alone, and its format reads `unit` and `arg`. -/
def decodeFields (op : Nat) (unit : BitVec 4) (arg : BitVec 24) : Decoded :=
  match op with
  | 0x0 => withoutUnit unit (lowField 0 arg fun _ => .op .nop)
  | 0x1 => withButton unit fun b => lowField 1 arg fun r => .op (.dbSample b (r.getLsbD 0))
  | 0x2 => withButton unit fun b => lowField 0 arg fun _ => .op (.dbQuery b)
  | 0x3 => withoutUnit unit (lowField 4 arg fun d => .op (.segEnc d))
  | 0x4 => withDisplay unit fun u => renderOperands arg (.rndDec u)
  | 0x5 => withDisplay unit fun u => renderOperands arg (.rndHex u)
  | 0x6 => withDisplay unit fun u => customOperands arg (.rndCustom u)
  | 0x7 => withoutUnit unit (lowField 0 arg fun _ => .op .scServe)
  | 0x8 => withoutUnit unit (lowField 1 arg fun p => .op (.scPoint (playerOfBit (p.getLsbD 0))))
  | 0x9 => withoutUnit unit (lowField 0 arg fun _ => .op .scUndo)
  | 0xA => withoutUnit unit (lowField 1 arg fun m => .op (.scSetMode (modeOfBit (m.getLsbD 0))))
  | 0xB => withoutUnit unit (lowField 1 arg fun p => .op (.scSetFs (playerOfBit (p.getLsbD 0))))
  | 0xC => withoutUnit unit (lowField 5 arg fun raw => .op (.iter raw))
  | 0xD => withoutUnit unit (lowField 0 arg fun _ => .op .refresh)
  | _ => .reserved .unassignedOp

/-- The verdict on a word (R86: every word that is no operation is reserved, by name). -/
def decode (w : Word) : Decoded := decodeFields (opField w).toNat (unitField w) (argField w)

/-- The decoder on a word numbered as the opcode table numbers it: one 32-bit command word, so `nbits` is 32 and the
word is itself; none where the decoder refuses. -/
def decodeTableWord (nbits w : Nat) : Option Instr :=
  match decode (BitVec.ofNat 32 (w % 2 ^ nbits)) with
  | .op i => some i
  | .reserved _ => none

/-! ## The encoder, from the same formats -/

/-- R10. -/
def unitOfButton : Button → BitVec 4
  | .mode => 0#4
  | .fs => 1#4
  | .undo => 2#4
  | .p1 => 3#4
  | .p2 => 4#4

/-- R10. -/
def unitOfDisplay : Display → BitVec 4
  | .s1 => 0#4
  | .s2 => 1#4
  | .g1 => 2#4
  | .g2 => 3#4

/-- R10. -/
def bitOfPlayer : Player → BitVec 1
  | .p1 => 0#1
  | .p2 => 1#1

/-- R10. -/
def bitOfMode : Mode → BitVec 1
  | .to11 => 0#1
  | .to21 => 1#1

/-- R81: `op`, `unit` and `arg` side by side. -/
def assemble (op unit : BitVec 4) (arg : BitVec 24) : Word := op ++ unit ++ arg

/-- R82 format R. -/
def renderArg (value : Nat) (dp : Option Nat) : BitVec 24 :=
  BitVec.ofBool dp.isSome ++ 0#3 ++ BitVec.ofNat 4 (dp.getD 0) ++ BitVec.ofNat 16 value

/-- R82 format C. -/
def customArg (pattern : Byte) (digit : Nat) : BitVec 24 := 0#12 ++ BitVec.ofNat 4 digit ++ pattern

/-- R82, R84: the word of an instruction; of a well-formed one its only word. -/
def encode : Instr → Word
  | .nop => assemble 0x0#4 0#4 0#24
  | .dbSample b raw => assemble 0x1#4 (unitOfButton b) (0#23 ++ BitVec.ofBool raw)
  | .dbQuery b => assemble 0x2#4 (unitOfButton b) 0#24
  | .segEnc d => assemble 0x3#4 0#4 (0#20 ++ d)
  | .rndDec u value dp => assemble 0x4#4 (unitOfDisplay u) (renderArg value dp)
  | .rndHex u value dp => assemble 0x5#4 (unitOfDisplay u) (renderArg value dp)
  | .rndCustom u pattern digit => assemble 0x6#4 (unitOfDisplay u) (customArg pattern digit)
  | .scServe => assemble 0x7#4 0#4 0#24
  | .scPoint p => assemble 0x8#4 0#4 (0#23 ++ bitOfPlayer p)
  | .scUndo => assemble 0x9#4 0#4 0#24
  | .scSetMode m => assemble 0xA#4 0#4 (0#23 ++ bitOfMode m)
  | .scSetFs p => assemble 0xB#4 0#4 (0#23 ++ bitOfPlayer p)
  | .iter raw => assemble 0xC#4 0#4 (0#19 ++ raw)
  | .refresh => assemble 0xD#4 0#4 0#24

/-! ## The opcode map of R84, as the spec's table has it -/

/-- R84's "extra condition" of a row. -/
inductive ExtraCondition where
  | always
  | unitAtMost4
  | pointOnlyWhenEnabled
deriving DecidableEq, Repr

/-- One row of R84: `match` (here `pattern`) and `mask`. -/
structure OpcodeRow where
  mnemonic : String
  pattern : Word
  mask : Word
  extra : ExtraCondition
deriving DecidableEq, Repr

/-- The table of R84, in its order. -/
def opcodeMap : List OpcodeRow :=
  [⟨"NOP", 0x00000000#32, 0xFFFFFFFF#32, .always⟩,
   ⟨"DB.SAMPLE", 0x10000000#32, 0xF8FFFFFE#32, .unitAtMost4⟩,
   ⟨"DB.QUERY", 0x20000000#32, 0xF8FFFFFF#32, .unitAtMost4⟩,
   ⟨"SEG.ENC", 0x30000000#32, 0xFFFFFFF0#32, .always⟩,
   ⟨"RND.DEC", 0x40000000#32, 0xFC700000#32, .pointOnlyWhenEnabled⟩,
   ⟨"RND.HEX", 0x50000000#32, 0xFC700000#32, .pointOnlyWhenEnabled⟩,
   ⟨"RND.CUSTOM", 0x60000000#32, 0xFCFFF000#32, .always⟩,
   ⟨"SC.SERVE", 0x70000000#32, 0xFFFFFFFF#32, .always⟩,
   ⟨"SC.POINT", 0x80000000#32, 0xFFFFFFFE#32, .always⟩,
   ⟨"SC.UNDO", 0x90000000#32, 0xFFFFFFFF#32, .always⟩,
   ⟨"SC.SETMODE", 0xA0000000#32, 0xFFFFFFFE#32, .always⟩,
   ⟨"SC.SETFS", 0xB0000000#32, 0xFFFFFFFE#32, .always⟩,
   ⟨"ITER", 0xC0000000#32, 0xFFFFFFE0#32, .always⟩,
   ⟨"REFRESH", 0xD0000000#32, 0xFFFFFFFF#32, .always⟩]

end Sys2Proof
end

