-- ==== Sys2Proof/Config.lean ====
section
/-!
DEFINITION. What a build fixes: the parameters R8 leaves open and the constants R20 calls `rom` and `cfg`.
They are plain data and stand in State (R20 lists them there), where no step writes them: a statement about every
state is a statement about every configuration. Three more fields, the model's own, say how the model reads the
places R238 names (logs 6, 7, 8).
-/

namespace Sys2Proof

/-- R8 `CUSTOM_BOUND`, D9: the comparison of the bounds check of R152. -/
inductive CustomBound where
  | le
  | lt
deriving DecidableEq, Repr

/-- R8 `EVENT_POLICY`, D10: how many triggered buttons one iteration applies (R214). -/
inductive EventPolicy where
  | firstOnly
  | allInOrder
deriving DecidableEq, Repr

/-- R8 `TRIGGER_EDGE`, D11: which edge of a button acts (R213). -/
inductive TriggerEdge where
  | pressed
  | released
deriving DecidableEq, Repr

/-- DESIGN CHOICE (logs 6, 7, 8). How the model reads a place named by R238: `refuse` ends the run there, `hardware`
takes what hardware built to the spec does. R238: "A model may replace a refusal by the hardware decision when the
claim lists that decision as a premise"; the premise is an equation about the field of this type. -/
inductive OpenReading where
  | refuse
  | hardware
deriving DecidableEq, Repr

/-- The parameters of one build. -/
structure Config where
  /-- R111: button b "uses a pull-up convention, where electrical-low means logically pressed". -/
  activeLow : PerButton Bool
  /-- R141: digit count `N[u]`. -/
  digits : PerDisplay Nat
  /-- R154: outputs of a display that are null sinks. -/
  segSink : PerDisplay Byte
  /-- R65, R132: the segment table. -/
  segTable : Vector Byte 16
  /-- R131: index of the decimal-point bit of a pattern. -/
  dpBit : Fin 8
  /-- R8, D4: the hold, in a unit the spec does not fix (log 11). -/
  tHold : Nat
  /-- R33: `SCORE_W`; `none` is the spec's `inf`. -/
  scoreW : Option Nat
  /-- R34: `GAMES_W`; `none` is the spec's `inf`. -/
  gamesW : Option Nat
  /-- R8, R143, D8: `VALUE_W`, the width of the value operand of a render. -/
  valueW : Nat
  customBound : CustomBound
  eventPolicy : EventPolicy
  triggerEdge : TriggerEdge
  /-- R8 `REFRESH_ORDER`, D12. -/
  refreshOrder : List Display
  /-- The model's own (log 6): a reserved word acts as NOP, or is refused (R86, R238). -/
  reservedReading : OpenReading
  /-- The model's own (log 7): `digit = N` under `le` runs the trace of R153, or is refused. -/
  boundaryReading : OpenReading
  /-- The model's own (log 8): an increment past a register's width is refused (R184), or leaves a free value. -/
  overflowReading : OpenReading
deriving DecidableEq, Repr

/-- R7 `NMAX`: the largest digit count a renderer may be built with. -/
def nMax : Nat := 15

/-- R132: the default table, digit 0 first. -/
def defaultSegTable : Vector Byte 16 :=
  #v[0x3F#8, 0x06#8, 0x5B#8, 0x4F#8, 0x66#8, 0x6D#8, 0x7D#8, 0x07#8,
     0x7F#8, 0x6F#8, 0x77#8, 0x7C#8, 0x39#8, 0x5E#8, 0x79#8, 0x71#8]

/-- The defaults of R8, with the digit counts of R7. `ACTIVE_LOW` and `T_HOLD` have no default in the spec:
DESIGN CHOICE, log 5. -/
def Config.default : Config where
  activeLow := ⟨false, false, false, false, false⟩
  digits := ⟨2, 2, 1, 1⟩
  segSink := ⟨0x00#8, 0x00#8, 0x00#8, 0x00#8⟩
  segTable := defaultSegTable
  dpBit := 7
  tHold := 1
  scoreW := some 8
  gamesW := some 8
  valueW := 16
  customBound := .le
  eventPolicy := .firstOnly
  triggerEdge := .pressed
  refreshOrder := [.s1, .s2, .g1, .g2]
  reservedReading := .hardware
  boundaryReading := .hardware
  overflowReading := .hardware

/-- A width bound that `inf` meets vacuously. -/
abbrev WidthAtLeast (least : Nat) (w : Option Nat) : Prop := least ≤ w.getD least

/-- A width that fits in another; `inf` is left to the renderer's naturals (R83). -/
abbrev WidthAtMost (most : Nat) (w : Option Nat) : Prop := w.getD most ≤ most

/-- R134: the table's constraints, whatever its literals: the point bit clear, no entry blank, all distinct. -/
abbrev Config.TableLegal (c : Config) : Prop :=
  (∀ e ∈ c.segTable.toList, e.getLsbD c.dpBit.val = false ∧ e ≠ 0x00#8) ∧ c.segTable.toList.Nodup

/-- The legal builds: the domains of R8 with R83, R134 and R141 (U6). -/
abbrev Config.Wf (c : Config) : Prop :=
  (1 ≤ c.digits.s1 ∧ c.digits.s1 ≤ nMax) ∧ (1 ≤ c.digits.s2 ∧ c.digits.s2 ≤ nMax) ∧
  (1 ≤ c.digits.g1 ∧ c.digits.g1 ≤ nMax) ∧ (1 ≤ c.digits.g2 ∧ c.digits.g2 ≤ nMax) ∧
  c.TableLegal ∧ 0 < c.tHold ∧
  WidthAtLeast 5 c.scoreW ∧ WidthAtLeast 1 c.gamesW ∧
  0 < c.valueW ∧ WidthAtMost c.valueW c.scoreW ∧ WidthAtMost c.valueW c.gamesW ∧
  c.refreshOrder.Perm [.s1, .s2, .g1, .g2]

/-- R33, R34: the four counters that are ever incremented. -/
inductive Counter where
  | score (p : Player)
  | games (p : Player)
deriving DecidableEq, Repr

/-- FREE VALUE (log 8). What an implementation leaves in a counter of the given width that held `old` and was
incremented past its range: implementation-defined (R184, U2: "an implementation may wrap, saturate or be wide
enough never to get there, and must document which"). Used only under `overflowReading = hardware`. -/
opaque Config.overflowValue (counter : Counter) (width old : Nat) : Nat

/-- FREE VALUE (log 18). What the scan controller of display u takes for a command's value that the `VALUE_W` of a
legal build cannot hold: R143 bounds the operand, R83 gives a 16-bit field, and no rule says what becomes of the
difference. -/
opaque Config.oversizeValue (u : Display) (width value : Nat) : Nat

end Sys2Proof
end

