-- ==== Sys2Proof/Machine/State.lean ====
section
/-!
DEFINITION. The state of the scornado core (R20), its values at reset (R44), and the reasons a step can stop.
The spec has no program counter, no addressed memory and no exception (R22, R69, R230), so there is none here; the
command words come from the host and stand in `input` (log 1).
-/

namespace Sys2Proof.Machine

/-- R16, R24 to R26: the Button Sample Window of one button: a ring of three slots, the write position modulo 3 and
the latched level. -/
structure Debouncer where
  slot0 : Level
  slot1 : Level
  slot2 : Level
  ctr : Fin 3
  latched : Level
deriving DecidableEq, Repr

/-- R44, D17. -/
def Debouncer.reset : Debouncer := ⟨.released, .released, .released, 0, .released⟩

/-- R16: the Game State. Scores and games are the source's "non-negative integers"; that they fit their registers
(R33, R34) is an invariant (log 14). -/
structure GameState where
  score : PerPlayer Nat
  games : PerPlayer Nat
  firstServe : Player
  mode : Mode
deriving DecidableEq, Repr

/-- R44: "all zero, first_serve = p1, mode = to_11". -/
def GameState.reset : GameState := ⟨⟨0, 0⟩, ⟨0, 0⟩, .p1, .to11⟩

/-- R12: the output events of an operation. -/
inductive Event where
  /-- `SEL(u, i, v)`: select output i of display u driven to v. -/
  | sel (u : Display) (i : Nat) (v : Bool)
  /-- `SEG(u, p)`: the eight segment outputs of display u driven to p. -/
  | seg (u : Display) (p : Byte)
  /-- `HOLD(u)`: a busy wait of `T_HOLD`. -/
  | hold (u : Display)
  /-- `IND(v1, v2)`: the two serve indicators. -/
  | ind (v1 v2 : Bool)
deriving DecidableEq, Repr

/-- What the host does next at the core's inputs (logs 1, 2). -/
inductive HostInput where
  /-- a command word, as it is accepted at the port (R80). -/
  | command (w : Word)
  /-- `rst` asserted and released (R260). -/
  | reset
deriving DecidableEq, Repr

/-- The state: the items of R20, the response and events of the last operation (R85, R12), and the host's inputs to
come. -/
structure State where
  /-- R20 `rom` and `cfg`: constants of the build, written by nothing. -/
  cfg : Config
  /-- R24 to R26. -/
  deb : PerButton Debouncer
  /-- R28: `sel[u][i]`, digit 0 first. -/
  sel : PerDisplay (List Bool)
  /-- R29. -/
  seg : PerDisplay Byte
  /-- R32. -/
  ind : PerPlayer Bool
  /-- R33 to R36. -/
  game : GameState
  /-- R41: the valid snapshots, oldest first; `top` is the length minus 1 (log 4). -/
  history : List GameState
  /-- R80, R85: the response, with `resp_valid` (log 3). -/
  resp : Option Byte
  /-- R12, D15: the events of the last operation, in order (log 3). -/
  events : List Event
  /-- The host's inputs still to come, in order (log 1). -/
  input : List HostInput
deriving DecidableEq, Repr

/-- R230: the hardware "raises no exception, takes no trap and has no error return"; there is no fault. -/
inductive Fault where
deriving DecidableEq, Repr

/-- Where the model declines to give a next state: R238's "model-level refusals", which "are not hardware events",
and the pipeline's own name for an instruction without a meaning. -/
inductive Refusal where
  /-- Raised by an arm of `exec` that has no meaning yet (none has it now). Safe: nothing follows from it. -/
  | notModelled (mnemonic : String)
  /-- R86, R238 `ReservedEncoding`: raised by the port on a reserved word under `reservedReading = refuse`.
  Safe: hardware executes the word as NOP, and the model proves nothing about it (log 6). -/
  | reservedEncoding (why : ReservedReason)
  /-- R184, R238 `ScoreOverflow`: raised by SC.POINT (and ITER through it) under `overflowReading = refuse` when the
  score's register is full. Safe (log 8). -/
  | scoreOverflow (p : Player)
  /-- R184, R238 `GamesOverflow`: raised by SC.POINT (and ITER through it) under `overflowReading = refuse` when a
  win meets a full games register. Safe (log 8). -/
  | gamesOverflow (p : Player)
  /-- R153, R238 `CustomBoundary`: raised by RND.CUSTOM with `digit = N` under `CUSTOM_BOUND = le` and
  `boundaryReading = refuse`. Safe (log 7). -/
  | customBoundary (u : Display)
deriving DecidableEq, Repr

/-- The answer of a meaning. -/
abbrev Result := Host.Outcome State Fault Refusal

/-- R44, for the build with the parameters `c`: what every item of state holds when `rst` is released. -/
def State.resetWith (c : Config) : State where
  cfg := c
  deb := ⟨.reset, .reset, .reset, .reset, .reset⟩
  sel := ⟨List.replicate c.digits.s1 false, List.replicate c.digits.s2 false,
    List.replicate c.digits.g1 false, List.replicate c.digits.g2 false⟩
  seg := ⟨0x00#8, 0x00#8, 0x00#8, 0x00#8⟩
  ind := ⟨false, false⟩
  game := .reset
  history := []
  resp := none
  events := []
  input := []

/-- The machine right after reset, for the default build (R8, R44; log 5), the host having asked for nothing yet. -/
def State.reset : State := .resetWith .default

end Sys2Proof.Machine
end

