-- ==== Sys2Proof/Machine/Operands.lean ====
section
/-!
DEFINITION. Every operand form (R82, R83): how a unit selects an instance, a raw sample is classified, an integer
is shown to a renderer, and a response is put together (R85).
-/

namespace Sys2Proof.Machine

/-! ## Instances selected by a unit, and the other value of a two-valued type (R10) -/

/-- R10: `other(p) = 1 - p`. -/
def otherPlayer : Player → Player
  | .p1 => .p2
  | .p2 => .p1

/-- R10: `other(m) = 1 - m`. -/
def otherMode : Mode → Mode
  | .to11 => .to21
  | .to21 => .to11

/-- The item of player p. -/
def ofPlayer {α : Type} (f : PerPlayer α) : Player → α
  | .p1 => f.p1
  | .p2 => f.p2

/-- The family with the item of player p replaced. -/
def setPlayer {α : Type} (f : PerPlayer α) : Player → α → PerPlayer α
  | .p1, x => { f with p1 := x }
  | .p2, x => { f with p2 := x }

/-- The item of button b. -/
def ofButton {α : Type} (f : PerButton α) : Button → α
  | .mode => f.mode
  | .fs => f.fs
  | .undo => f.undo
  | .p1 => f.p1
  | .p2 => f.p2

/-- The family with the item of button b replaced. -/
def setButton {α : Type} (f : PerButton α) : Button → α → PerButton α
  | .mode, x => { f with mode := x }
  | .fs, x => { f with fs := x }
  | .undo, x => { f with undo := x }
  | .p1, x => { f with p1 := x }
  | .p2, x => { f with p2 := x }

/-- The item of display u. -/
def ofDisplay {α : Type} (f : PerDisplay α) : Display → α
  | .s1 => f.s1
  | .s2 => f.s2
  | .g1 => f.g1
  | .g2 => f.g2

/-- The family with the item of display u replaced. -/
def setDisplay {α : Type} (f : PerDisplay α) : Display → α → PerDisplay α
  | .s1, x => { f with s1 := x }
  | .s2, x => { f with s2 := x }
  | .g1, x => { f with g1 := x }
  | .g2, x => { f with g2 := x }

/-- The five buttons in index order, the fixed order of R212. -/
def buttonsInOrder : List Button := [.mode, .fs, .undo, .p1, .p2]

/-- R10: the index of a button. -/
def buttonIndex : Button → Nat
  | .mode => 0
  | .fs => 1
  | .undo => 2
  | .p1 => 3
  | .p2 => 4

/-- R212: bit b of the operand of ITER is the raw sample of button b. -/
def rawSamples (raw : BitVec 5) : PerButton Bool :=
  ⟨raw.getLsbD 0, raw.getLsbD 1, raw.getLsbD 2, raw.getLsbD 3, raw.getLsbD 4⟩

/-! ## Operands of the debouncer and the renderer -/

/-- R10: a level from its bit. -/
def levelOfBit : Bool → Level
  | false => .released
  | true => .pressed

/-- R111: `m = raw ^ ACTIVE_LOW[b]`, the semantically mapped sample. -/
def mappedSample (c : Config) (b : Button) (raw : Bool) : Level :=
  levelOfBit (raw ^^ ofButton c.activeLow b)

/-- R141: `N[u]`. -/
def digitCount (c : Config) (u : Display) : Nat := ofDisplay c.digits u

/-- R20, R143: the width of a render's value; R83: "with a width of `inf` the renderer's value is a natural number"
(log 18). -/
def renderWidth (c : Config) : Option Nat :=
  match c.scoreW, c.gamesW with
  | some _, some _ => some c.valueW
  | _, _ => none

/-- R143, R83: the value a command hands to the renderer of display u, "used at full precision" where `VALUE_W` holds
it. DESIGN CHOICE (log 18): past it, where the spec says nothing, a free value of that width. -/
def commandValue (c : Config) (u : Display) (value : Nat) : Nat :=
  match renderWidth c with
  | none => value
  | some k => if value < 2 ^ k then value else Config.oversizeValue u k value % 2 ^ k

/-- R148, R149: the base of a numeric render. -/
inductive Radix where
  | dec
  | hex
deriving DecidableEq, Repr

/-- R143. -/
def radixValue : Radix → Nat
  | .dec => 10
  | .hex => 16

/-- R211: what REFRESH shows on each display; R83: the register's value goes to the renderer untruncated. -/
def shownValue (g : GameState) : Display → Nat
  | .s1 => g.score.p1
  | .s2 => g.score.p2
  | .g1 => g.games.p1
  | .g2 => g.games.p2

/-! ## Responses (R85): bits not named are 0 -/

/-- R10, R85: the `Edge` in `resp[1:0]`. -/
def edgeResponse : Edge → Byte
  | .none => 0x00#8
  | .pressed => 0x01#8
  | .released => 0x02#8

/-- R85: a level in `resp[0]`. -/
def levelResponse : Level → Byte
  | .released => 0x00#8
  | .pressed => 0x01#8

/-- R85: a player in `resp[0]`. -/
def playerResponse : Player → Byte
  | .p1 => 0x00#8
  | .p2 => 0x01#8

/-- R85, R212: `applied ++ trig[4:0]`, with 7 when nothing was applied. -/
def iterResponse (applied : Option Button) (trig : PerButton Bool) : Byte :=
  BitVec.ofNat 3 ((applied.map buttonIndex).getD 7) ++
    (BitVec.ofBool trig.p2 ++ BitVec.ofBool trig.p1 ++ BitVec.ofBool trig.undo ++
      BitVec.ofBool trig.fs ++ BitVec.ofBool trig.mode)

end Sys2Proof.Machine
end

