-- ==== Sys2Proof/Machine/Flags.lean ====
section
/-!
DEFINITION. The hardware stores no flag (R23). Its five predicates, and the constants they and the scoring engine
use (R7, R172), are computed here from state wherever a rule needs them.
-/

namespace Sys2Proof.Machine

/-- R7 `THR`: the deuce threshold of a mode. -/
def threshold : Mode → Nat
  | .to11 => 10
  | .to21 => 20

/-- R7 `TARGET`: the score that wins outright. -/
def target : Mode → Nat
  | .to11 => 11
  | .to21 => 21

/-- R7 `IVAL`: points per server outside deuce. -/
def interval : Mode → Nat
  | .to11 => 2
  | .to21 => 5

/-- R7 `IVAL_DEUCE`. -/
def deuceInterval : Nat := 1

/-- R7 `HIST_CAP`. -/
def historyCapacity : Nat := 32

/-- R23 `agree`: the three slots are equal. -/
def agree (d : Debouncer) : Bool := d.slot0 == d.slot1 && d.slot1 == d.slot2

/-- R23, R172 `deuce`: both scores are at the threshold of the current mode or above. -/
def deuce (g : GameState) : Bool :=
  threshold g.mode ≤ g.score.p1 && threshold g.mode ≤ g.score.p2

/-- R23 `locked`: some score is nonzero. -/
def locked (g : GameState) : Bool := g.score.p1 != 0 || g.score.p2 != 0

/-- R23 `hist_empty`: `top = -1`. -/
def historyEmpty (h : List GameState) : Bool := h.length == 0

/-- R23 `hist_full`: `top = 31`. -/
def historyFull (h : List GameState) : Bool := h.length == historyCapacity

end Sys2Proof.Machine
end

