-- ==== Sys2Proof/Machine/Ops.lean ====
section
/-!
DEFINITION. The named operations over the state that the meanings share: sequencing of results, the output events,
the response, the history primitives (R62, R63) and the one increment that can fail to fit (R184).
There is no operation that takes an exception and none that returns from one: R235 "no state is saved anywhere on
any condition", R236 "There is no return operation".
-/

namespace Sys2Proof.Machine

/-! ## Results -/

/-- What follows a next state; a stop stays as it is (R212: the model refusals "pass through"). -/
def andThen (r : Result) (k : State → Result) : Result :=
  match r with
  | .next s => k s
  | .fault f => .fault f
  | .refused x => .refused x

/-- An operation begins with no event of its own (R12: "the operation's event list") and no response yet. -/
def begin (s : State) : State := { s with resp := none, events := [] }

/-- `return v` (R11): the response of the operation (R85). -/
def respond (v : Byte) (s : State) : Result := .next { s with resp := some v }

/-! ## Output events -/

/-- R12: "the level of an output at any instant is the value of the last event that wrote it". A select index no
output stands at drives nothing (R153; log 17). -/
def drive (e : Event) (s : State) : State :=
  match e with
  | .sel u i v => { s with sel := setDisplay s.sel u ((ofDisplay s.sel u).set i v) }
  | .seg u p => { s with seg := setDisplay s.seg u p }
  | .hold _ => s
  | .ind v1 v2 => { s with ind := ⟨v1, v2⟩ }

/-- `emit E` (R11): the event is appended to the operation's list, and the outputs it writes are written. -/
def emit (e : Event) (s : State) : State :=
  { drive e s with events := s.events ++ [e] }

/-! ## The history store, in the list view of R41 -/

/-- R62 `HistPush`: append the newest snapshot, the oldest of a full store first discarded. -/
def pushed (h : List GameState) (g : GameState) : List GameState :=
  (if historyFull h then h.tail else h) ++ [g]

/-- R63 `HistPop`: the newest snapshot and what is left; none of an empty store. -/
def popped (h : List GameState) : Option (GameState × List GameState) :=
  if historyEmpty h then none else h.getLast?.map fun g => (g, h.dropLast)

/-! ## Counters of a given width -/

/-- R184, R220: `n + 1`, exactly. When a register of width `w` cannot hold it: none under the reading `refuse`, and
the implementation's own value under `hardware`, brought into the register's range (log 8). With `inf` it always
fits. R184 names the one stored value `2^w - 1`; larger ones are not values of the register (log 9). -/
def incremented (counter : Counter) (w : Option Nat) (reading : OpenReading) (n : Nat) : Option Nat :=
  match w with
  | none => some (n + 1)
  | some k =>
    if n + 1 < 2 ^ k then some (n + 1)
    else
      match reading with
      | .refuse => none
      | .hardware => some (Config.overflowValue counter k n % 2 ^ k)

end Sys2Proof.Machine
end

