-- ==== Sys2Proof/Machine/Debounce.lean ====
section
/-!
DEFINITION. The Input Debouncer (`40_debouncer.md`): DB.SAMPLE and DB.QUERY.
-/

namespace Sys2Proof.Machine

/-- R64: the slot at ring position k is overwritten. -/
def writeSlot (d : Debouncer) (k : Fin 3) (m : Level) : Debouncer :=
  match k with
  | 0 => { d with slot0 := m }
  | 1 => { d with slot1 := m }
  | 2 => { d with slot2 := m }

/-- R112: the edge that a move to the level `cand` is reported as. -/
def edgeTo : Level → Edge
  | .pressed => .pressed
  | .released => .released

/-- R112 on one window, the mapped sample given: write, advance modulo 3 (`Fin 3` wraps), then compare the three
slots and latch. -/
def sampleWindow (m : Level) (d : Debouncer) : Debouncer × Edge :=
  let d := { writeSlot d d.ctr m with ctr := d.ctr + 1 }
  if agree d then
    let cand := d.slot0
    if cand = d.latched then (d, .none) else ({ d with latched := cand }, edgeTo cand)
  else (d, .none)

/-- R112 on the state: button b's window after the raw sample. -/
def sampledWindow (s : State) (b : Button) (raw : Bool) : Debouncer × Edge :=
  sampleWindow (mappedSample s.cfg b raw) (ofButton s.deb b)

/-- R112 `DB.SAMPLE b, raw` without the response: the state, and the edge it returns. -/
def sampleButton (b : Button) (raw : Bool) (s : State) : State × Edge :=
  let r := sampledWindow s b raw
  ({ s with deb := setButton s.deb b r.1 }, r.2)

/-- `DB.SAMPLE b, raw` (R112). -/
def execDbSample (b : Button) (raw : Bool) (s : State) : Result :=
  let r := sampleButton b raw (begin s)
  respond (edgeResponse r.2) r.1

/-- `DB.QUERY b` (R116): "returns the current latched state without sampling". -/
def execDbQuery (b : Button) (s : State) : Result :=
  respond (levelResponse (ofButton s.deb b).latched) (begin s)

/-! The view of R27(b) and R113: the ring read oldest first. -/

/-- R27(b): the three slots, oldest first; the slot at `ctr` is the oldest. -/
def windowOldestFirst (d : Debouncer) : Level × Level × Level :=
  match d.ctr with
  | 0 => (d.slot0, d.slot1, d.slot2)
  | 1 => (d.slot1, d.slot2, d.slot0)
  | 2 => (d.slot2, d.slot0, d.slot1)

end Sys2Proof.Machine
end

