-- ==== Sys2Proof/Machine/Segments.lean ====
section
/-!
DEFINITION. The Segment Encoder (`41_segment_encoder.md`): SEG.ENC.
-/

namespace Sys2Proof.Machine

/-- R130, R133: `SEG_TABLE[d]`; a digit is 4 bits wide, so every index is in the table. -/
def segmentPattern (c : Config) (d : BitVec 4) : Byte := c.segTable.get ⟨d.toNat, d.isLt⟩

/-- `SEG.ENC d` (R133). -/
def execSegEnc (d : BitVec 4) (s : State) : Result := respond (segmentPattern s.cfg d) (begin s)

end Sys2Proof.Machine
end

