-- ==== Sys2Proof/Machine/Renderer.lean ====
section
/-!
DEFINITION. The Multiplexed Display Renderer (`42_display_renderer.md`): RND.DEC, RND.HEX, RND.CUSTOM.
-/

namespace Sys2Proof.Machine

/-! ## The scan controller -/

/-- R144: a digit value, or blank (R17). -/
inductive Glyph where
  | digit (d : BitVec 4)
  | blank
deriving DecidableEq, Repr

/-- R144 step 2's test: digit 0, or a digit up to and including the requested decimal point. -/
def zeroFilled (dp : Option Nat) (i : Nat) : Bool := i == 0 || dp.any (i ≤ ·)

/-- R144 steps 1 to 3, the remaining value being v. A remainder is below 16, so it is a 4-bit digit. -/
def chosenGlyph (base : Radix) (dp : Option Nat) (i v : Nat) : Glyph :=
  if v ≠ 0 then .digit (BitVec.ofNat 4 (v % radixValue base))
  else if zeroFilled dp i then .digit 0#4
  else .blank

/-- R144: the remaining value after digit i; step 1 alone divides it. -/
def remainingValue (base : Radix) (v : Nat) : Nat := if v ≠ 0 then v / radixValue base else v

/-- R145: the glyph's pattern, blank being 0x00. -/
def glyphPattern (c : Config) : Glyph → Byte
  | .digit d => segmentPattern c d
  | .blank => 0x00#8

/-- R145 step 4: the decimal-point bit. -/
def pointBit (c : Config) : Byte := 1#8 <<< c.dpBit.val

/-- R145: the pattern of digit i. -/
def digitPattern (c : Config) (dp : Option Nat) (i : Nat) (g : Glyph) : Byte :=
  if dp = some i then glyphPattern c g ||| pointBit c else glyphPattern c g

/-! ## The select sequencer -/

/-- R146: enable, write, hold, disable, clear. -/
def driveDigit (u : Display) (i : Nat) (pat : Byte) (s : State) : State :=
  emit (.seg u 0x00#8) (emit (.sel u i false) (emit (.hold u) (emit (.seg u pat) (emit (.sel u i true) s))))

/-- R148's loop: n digits still to draw, the next being i, the remaining value v. -/
def renderDigits (u : Display) (base : Radix) (dp : Option Nat) : (n i v : Nat) → State → State
  | 0, _, _, s => s
  | n + 1, i, v, s =>
    let pat := digitPattern s.cfg dp i (chosenGlyph base dp i v)
    renderDigits u base dp n (i + 1) (remainingValue base v) (driveDigit u i pat s)

/-- R148, R149: one full refresh of display u, all N digits, the least significant first. -/
def renderNumber (u : Display) (base : Radix) (value : Nat) (dp : Option Nat) (s : State) : State :=
  renderDigits u base dp (digitCount s.cfg u) 0 value s

/-- `RND.DEC u, value, dp` (R148); a value past `VALUE_W` is free (log 18). -/
def execRndDec (u : Display) (value : Nat) (dp : Option Nat) (s : State) : Result :=
  respond 0x00#8 (renderNumber u .dec (commandValue s.cfg u value) dp (begin s))

/-- `RND.HEX u, value, dp` (R149); a value past `VALUE_W` is free (log 18). -/
def execRndHex (u : Display) (value : Nat) (dp : Option Nat) (s : State) : Result :=
  respond 0x00#8 (renderNumber u .hex (commandValue s.cfg u value) dp (begin s))

/-! ## The custom path -/

/-- R152: the bounds check, `<=` or `<`. -/
def customInBounds (bound : CustomBound) (digit n : Nat) : Bool :=
  match bound with
  | .le => digit ≤ n
  | .lt => digit < n

/-- R153: the trace of `digit = N`: no select output stands there, the segment outputs are driven and cleared. -/
def driveUnselected (u : Display) (pat : Byte) (s : State) : State :=
  emit (.seg u 0x00#8) (emit (.hold u) (emit (.seg u pat) s))

/-- `RND.CUSTOM u, pattern, digit` (R152); `digit = N` by R153 or refused, as the configuration reads it (log 7). -/
def execRndCustom (u : Display) (pattern : Byte) (digit : Nat) (s : State) : Result :=
  let n := digitCount s.cfg u
  if customInBounds s.cfg.customBound digit n then
    if digit < n then respond 0x00#8 (driveDigit u digit pattern (begin s))
    else
      match s.cfg.boundaryReading with
      | .hardware => respond 0x00#8 (driveUnselected u pattern (begin s))
      | .refuse => .refused (.customBoundary u)
  else respond 0x00#8 (begin s)

end Sys2Proof.Machine
end

