-- ==== Sys2Proof/Machine/Scoring.lean ====
section
/-!
DEFINITION. The Match Scoring Engine (`43_scoring_engine.md`): SC.SERVE, SC.POINT, SC.UNDO, SC.SETMODE, SC.SETFS.
-/

namespace Sys2Proof.Machine

/-! ## SC.SERVE -/

/-- R173. -/
def serveInterval (g : GameState) : Nat := if deuce g then deuceInterval else interval g.mode

/-- R174: floor of the total over the interval. -/
def intervalsElapsed (g : GameState) : Nat := (g.score.p1 + g.score.p2) / serveInterval g

/-- R174: even, the first server; odd, the other player. -/
def server (g : GameState) : Player :=
  if intervalsElapsed g % 2 = 0 then g.firstServe else otherPlayer g.firstServe

/-- `SC.SERVE` (R174). -/
def execScServe (s : State) : Result := respond (playerResponse (server s.game)) (begin s)

/-! ## SC.POINT -/

/-- R180, R182: the win evaluation on the incremented scores, p1 tested first (D21). -/
def winner (g : GameState) : Option Player :=
  if deuce g then
    if g.score.p2 + 2 ≤ g.score.p1 then some .p1
    else if g.score.p1 + 2 ≤ g.score.p2 then some .p2
    else none
  else
    if target g.mode ≤ g.score.p1 then some .p1
    else if target g.mode ≤ g.score.p2 then some .p2
    else none

/-- R180, R185: what follows the evaluation: nothing, or the games of the winner incremented and both scores 0. -/
def settled (c : Config) (g : GameState) : Except Refusal GameState :=
  match winner g with
  | none => .ok g
  | some w =>
    match incremented (.games w) c.gamesW c.overflowReading (ofPlayer g.games w) with
    | none => .error (.gamesOverflow w)
    | some n => .ok { g with games := setPlayer g.games w n, score := ⟨0, 0⟩ }

/-- R180 on the Game State: the player's score incremented, then the evaluation. -/
def pointAwarded (c : Config) (p : Player) (g : GameState) : Except Refusal GameState :=
  match incremented (.score p) c.scoreW c.overflowReading (ofPlayer g.score p) with
  | none => .error (.scoreOverflow p)
  | some n => settled c { g with score := setPlayer g.score p n }

/-- R180 `SC.POINT p` without the response: push, then the point. -/
def awardPoint (p : Player) (s : State) : Result :=
  match pointAwarded s.cfg p s.game with
  | .ok g => .next { s with history := pushed s.history s.game, game := g }
  | .error r => .refused r

/-- `SC.POINT p` (R180). -/
def execScPoint (p : Player) (s : State) : Result := andThen (awardPoint p (begin s)) (respond 0x00#8)

/-! ## SC.UNDO -/

/-- R190 `SC.UNDO` without the response. -/
def undoPoint (s : State) : State :=
  match popped s.history with
  | some (g, h) => { s with game := g, history := h }
  | none => s

/-- `SC.UNDO` (R190). -/
def execScUndo (s : State) : Result := respond 0x00#8 (undoPoint (begin s))

/-! ## SC.SETMODE and SC.SETFS -/

/-- R192 `SC.SETMODE m` without the response. -/
def setMode (m : Mode) (s : State) : State :=
  if locked s.game then s else { s with game := { s.game with mode := m } }

/-- R194 `SC.SETFS p` without the response. -/
def setFirstServe (p : Player) (s : State) : State :=
  if locked s.game then s else { s with game := { s.game with firstServe := p } }

/-- `SC.SETMODE m` (R192). -/
def execScSetMode (m : Mode) (s : State) : Result := respond 0x00#8 (setMode m (begin s))

/-- `SC.SETFS p` (R194). -/
def execScSetFs (p : Player) (s : State) : Result := respond 0x00#8 (setFirstServe p (begin s))

end Sys2Proof.Machine
end

