-- ==== Sys2Proof/Machine/Sequencer.lean ====
section
/-!
DEFINITION. The Iteration Sequencer (`44_iteration_sequencer.md`): NOP, REFRESH, ITER.
-/

namespace Sys2Proof.Machine

/-- `NOP` (R210). -/
def execNop (s : State) : Result := respond 0x00#8 (begin s)

/-! ## REFRESH -/

/-- R211: the indicators show the server. -/
def showServer (s : State) : State :=
  emit (.ind (server s.game == .p1) (server s.game == .p2)) s

/-- R211: one display shows its register in decimal, with no point. -/
def showDisplay (s : State) (u : Display) : State := renderNumber u .dec (shownValue s.game u) none s

/-- R211: the indicators, then the four displays in `REFRESH_ORDER`. -/
def refreshOutputs (s : State) : State := s.cfg.refreshOrder.foldl showDisplay (showServer s)

/-- `REFRESH` (R211). -/
def execRefresh (s : State) : Result := respond 0x00#8 (refreshOutputs (begin s))

/-! ## ITER -/

/-- R212: each of the five debouncers sampled once, in index order; the edges they return. -/
def sampleAll (raw : PerButton Bool) (s : State) : State × PerButton Edge :=
  let r0 := sampleButton .mode raw.mode s
  let r1 := sampleButton .fs raw.fs r0.1
  let r2 := sampleButton .undo raw.undo r1.1
  let r3 := sampleButton .p1 raw.p1 r2.1
  let r4 := sampleButton .p2 raw.p2 r3.1
  (r4.1, ⟨r0.2, r1.2, r2.2, r3.2, r4.2⟩)

/-- R213: the edge that acts. -/
def actingEdge (c : Config) : Edge :=
  match c.triggerEdge with
  | .pressed => .pressed
  | .released => .released

/-- R212: `trig[b]`. -/
def triggers (c : Config) (e : PerButton Edge) : PerButton Bool :=
  ⟨e.mode == actingEdge c, e.fs == actingEdge c, e.undo == actingEdge c, e.p1 == actingEdge c,
   e.p2 == actingEdge c⟩

/-- R214: the triggered buttons that are handled, in the fixed order: the first, or all. -/
def handledButtons (policy : EventPolicy) (trig : PerButton Bool) : List Button :=
  let all := buttonsInOrder.filter (ofButton trig)
  match policy with
  | .firstOnly => all.take 1
  | .allInOrder => all

/-- R212, R213: the engine operation of a button. -/
def handleButton (b : Button) (s : State) : Result :=
  match b with
  | .mode => .next (setMode (otherMode s.game.mode) s)
  | .fs => .next (setFirstServe (otherPlayer s.game.firstServe) s)
  | .undo => .next (undoPoint s)
  | .p1 => awardPoint .p1 s
  | .p2 => awardPoint .p2 s

/-- R214: the handled buttons one after the other, "each on the state left by the one before". -/
def handleAll : List Button → State → Result
  | [], s => .next s
  | b :: rest, s => andThen (handleButton b s) (handleAll rest)

/-- `ITER raw[4:0]` (R212). -/
def execIter (raw : BitVec 5) (s : State) : Result :=
  let r := sampleAll (rawSamples raw) (begin s)
  let trig := triggers s.cfg r.2
  let handled := handledButtons s.cfg.eventPolicy trig
  andThen (handleAll handled r.1) fun t =>
    respond (iterResponse handled.getLast? trig) (refreshOutputs t)

end Sys2Proof.Machine
end

