-- ==== Sys2Proof/Machine/Dispatch.lean ====
section
/-!
DEFINITION. One arm per operation: its meaning.
-/

namespace Sys2Proof.Machine

def exec (i : Instr) (s : State) : Host.Outcome State Fault Refusal :=
  match i with
  | .nop => Sys2Proof.Machine.execNop s
  | .dbSample b raw => Sys2Proof.Machine.execDbSample b raw s
  | .dbQuery b => Sys2Proof.Machine.execDbQuery b s
  | .segEnc d => Sys2Proof.Machine.execSegEnc d s
  | .rndDec u value dp => Sys2Proof.Machine.execRndDec u value dp s
  | .rndHex u value dp => Sys2Proof.Machine.execRndHex u value dp s
  | .rndCustom u pattern digit => Sys2Proof.Machine.execRndCustom u pattern digit s
  | .scServe => Sys2Proof.Machine.execScServe s
  | .scPoint p => Sys2Proof.Machine.execScPoint p s
  | .scUndo => Sys2Proof.Machine.execScUndo s
  | .scSetMode m => Sys2Proof.Machine.execScSetMode m s
  | .scSetFs p => Sys2Proof.Machine.execScSetFs p s
  | .iter raw => Sys2Proof.Machine.execIter raw s
  | .refresh => Sys2Proof.Machine.execRefresh s

end Sys2Proof.Machine
end

