-- ==== Sys2Proof/Machine/Port.lean ====
section
/-!
DEFINITION. The command port (R80) and the reset input (R260): what one item of the host's input does.
-/

namespace Sys2Proof.Machine

/-- R86: "The hardware executes a reserved word as `NOP`: no state change, no event, response 0"; R238: or the model
refuses it, as the configuration reads it (log 6). -/
def runReserved (why : ReservedReason) (s : State) : Result :=
  match s.cfg.reservedReading with
  | .hardware => respond 0x00#8 (begin s)
  | .refuse => .refused (.reservedEncoding why)

/-- R80: an accepted command word is decoded and executed. -/
def runWord (w : Word) (s : State) : Result :=
  match decode w with
  | .op i => exec i s
  | .reserved why => runReserved why s

/-- R260: `rst` asserted and released: every item at its reset value, the build and the host's later inputs as they
are (log 2). -/
def afterReset (s : State) : State := { State.resetWith s.cfg with input := s.input }

/-- One item of the host's input, already taken from the list. -/
def runInput (x : HostInput) (s : State) : Result :=
  match x with
  | .command w => runWord w s
  | .reset => .next (afterReset s)

/-- A command word laid at the head of the host's input: the next one accepted (log 1). -/
def presentWord (s : State) (nbits w : Nat) : State :=
  { s with input := .command (BitVec.ofNat 32 (w % 2 ^ nbits)) :: s.input }

end Sys2Proof.Machine
end

