-- ==== Sys2Proof/Machine/Step.lean ====
section
/-!
DEFINITION. One step: the next item of the host's input; with none, the core is idle (R261: "idle with
`cmd_ready = 1`") and nothing changes.
-/

namespace Sys2Proof.Machine

def step (s : State) : Host.Outcome State Fault Refusal :=
  match s.input with
  | [] => .next s
  | x :: rest => runInput x { s with input := rest }

/-- The command word placed where the next step takes it. -/
def State.withFetchWord (s : State) (nbits w : Nat) : State := presentWord s nbits w

end Sys2Proof.Machine
end

