-- ==== Sys2Proof/Machine/HistoryStore.lean ====
section
/-!
DEFINITION. The history store as R39, R40, R62 and R63 describe it: 32 entries and the index of the latest valid one,
with shift-down eviction and stale entries. The step holds R41's list; the statements show that the two agree, for
every content of the stale entries.
-/

namespace Sys2Proof.Machine

/-- R39, R40. -/
structure HistoryStore where
  entries : Vector GameState 32
  top : Int
deriving DecidableEq, Repr

/-- R40: the range of the index. -/
abbrev HistoryStore.Valid (h : HistoryStore) : Prop := -1 ≤ h.top ∧ h.top ≤ 31

/-- R62's shift: `hist[k] <- hist[k+1]` for k in 0..30; entry 31 is not written by it. -/
def shiftDown (e : Vector GameState 32) : Vector GameState 32 :=
  Vector.ofFn fun k : Fin 32 => if h : k.val + 1 < 32 then e[k.val + 1] else e[31]

/-- R62 `HistPush`. -/
def storePush (h : HistoryStore) (g : GameState) : HistoryStore :=
  let e := if h.top = 31 then shiftDown h.entries else h.entries
  let t := if h.top = 31 then h.top else h.top + 1
  { entries := e.setIfInBounds t.toNat g, top := t }

/-- R63 `HistPop`: the popped entry's storage is not cleared. -/
def storePop (h : HistoryStore) : Option (GameState × HistoryStore) :=
  if h.top = -1 then none
  else h.entries[h.top.toNat]?.map fun g => (g, { h with top := h.top - 1 })

/-- R41: the valid snapshots, oldest first. -/
def storeSnapshots (h : HistoryStore) : List GameState := h.entries.toList.take (h.top + 1).toNat

end Sys2Proof.Machine
end

