-- ==== Sys2Proof/Machine/Readout.lean ====
section
/-!
DEFINITION. The read-only views: the packed Game State and `gs_out` (R37, R45), `top` and `top_out` (R40, R45), the
pin level of a display (R154), the durations (R272). Reading a view is no operation and changes nothing.
-/

namespace Sys2Proof.Machine

/-! ## The packed Game State -/

/-- R10. -/
def playerBit : Player → Nat
  | .p1 => 0
  | .p2 => 1

/-- R10. -/
def modeBit : Mode → Nat
  | .to11 => 0
  | .to21 => 1

/-- R37 `GS_W`. -/
def packedWidth (sw gw : Nat) : Nat := 2 * sw + 2 * gw + 2

/-- R37 `pack(G)` for score registers of sw bits and games registers of gw bits, every field at its position. -/
def packGame (sw gw : Nat) (g : GameState) : Nat :=
  modeBit g.mode + 2 * playerBit g.firstServe + 2 ^ 2 * g.score.p1 + 2 ^ (sw + 2) * g.score.p2 +
    2 ^ (2 * sw + 2) * g.games.p1 + 2 ^ (2 * sw + gw + 2) * g.games.p2

/-- R9: `w[lo + n - 1 : lo]`. -/
def bitSlice (w lo n : Nat) : Nat := w / 2 ^ lo % 2 ^ n

/-- R37 `unpack(w)`. -/
def unpackGame (sw gw w : Nat) : GameState where
  score := ⟨bitSlice w 2 sw, bitSlice w (sw + 2) sw⟩
  games := ⟨bitSlice w (2 * sw + 2) gw, bitSlice w (2 * sw + gw + 2) gw⟩
  firstServe := if bitSlice w 1 1 = 0 then .p1 else .p2
  mode := if bitSlice w 0 1 = 0 then .to11 else .to21

/-- R45 `gs_out`; R37: "With a width of `inf` there is no packed word". -/
def gsOut (s : State) : Option Nat :=
  match s.cfg.scoreW, s.cfg.gamesW with
  | some sw, some gw => some (packGame sw gw s.game)
  | _, _ => none

/-! ## The history index -/

/-- R40: the index of the latest valid snapshot, -1 when there is none. -/
def topIndex (s : State) : Int := (s.history.length : Int) - 1

/-- R40, R45 `top_out`: 6-bit two's complement. -/
def topOut (s : State) : BitVec 6 := BitVec.ofInt 6 (topIndex s)

/-! ## Pins and time -/

/-- R154: "The pin-level pattern is `p & ~SEG_SINK[u]`". -/
def segmentPins (s : State) (u : Display) : Byte := ofDisplay s.seg u &&& ~~~(ofDisplay s.cfg.segSink u)

/-- R12: the event is a `HOLD`. -/
def isHold : Event → Bool
  | .hold _ => true
  | _ => false

/-- R272: the time the last operation held, its number of holds times `T_HOLD` (log 11). -/
def holdTime (s : State) : Nat := (s.events.filter isHold).length * s.cfg.tHold

end Sys2Proof.Machine
end

