-- ==== Sys2Proof/Safety.lean ====
section
/-!
DEFINITION. What holds between operations (R27, R31, R32, R33, R34, R38, R40), as predicates of the state, and what
it means that the machine cannot stop. The statements use these names.
-/

namespace Sys2Proof.Machine

/-- R27(d): "after every `DB.SAMPLE b`, if `agree(b)` then `latched[b] = slot[b][0]`". -/
abbrev DebouncerSettled (d : Debouncer) : Prop := agree d = true → d.latched = d.slot0

/-- R31: every select output of every display is 0 and every segment output is 0. -/
abbrev OutputsDark (s : State) : Prop :=
  ∀ u, ofDisplay s.sel u = List.replicate (digitCount s.cfg u) false ∧ ofDisplay s.seg u = 0x00#8

/-- R32: not both indicators are on. -/
abbrev IndicatorsExclusive (s : State) : Prop := ¬(s.ind.p1 = true ∧ s.ind.p2 = true)

/-- R33, R34: a value of a register of width w. -/
abbrev FitsWidth (w : Option Nat) (n : Nat) : Prop := ∀ k, w = some k → n < 2 ^ k

/-- R33, R34: the four counters of a Game State are values of their registers. -/
abbrev GameFits (c : Config) (g : GameState) : Prop :=
  ∀ p, FitsWidth c.scoreW (ofPlayer g.score p) ∧ FitsWidth c.gamesW (ofPlayer g.games p)

/-- R38 `won(G, p)`: player p has a standing win. -/
abbrev StandingWin (g : GameState) (p : Player) : Prop :=
  if threshold g.mode ≤ g.score.p1 ∧ threshold g.mode ≤ g.score.p2 then
    ofPlayer g.score (otherPlayer p) + 2 ≤ ofPlayer g.score p
  else threshold g.mode + 1 ≤ ofPlayer g.score p

/-- R38: nobody has a standing win. -/
abbrev NoStandingWin (g : GameState) : Prop := ∀ p, ¬StandingWin g p

/-- What every step keeps: R27(d), R31, R32, R33, R34, R38, R40. -/
structure StateInvariant (s : State) : Prop where
  settled : ∀ b, DebouncerSettled (ofButton s.deb b)
  dark : OutputsDark s
  indicators : IndicatorsExclusive s
  capacity : s.history.length ≤ historyCapacity
  fits : ∀ g ∈ s.game :: s.history, GameFits s.cfg g
  noWin : ∀ g ∈ s.game :: s.history, NoStandingWin g

/-- The configuration leaves no place where the model refuses: the readings of R238 are the hardware's (with
`CUSTOM_BOUND = lt` the boundary case "does not arise", R153; with a width of `inf` an overflow "does not exist",
R184). -/
abbrev NeverRefuses (c : Config) : Prop :=
  c.reservedReading = .hardware ∧ (c.customBound = .lt ∨ c.boundaryReading = .hardware) ∧
  ((c.scoreW = none ∧ c.gamesW = none) ∨ c.overflowReading = .hardware)

/-- R184: a point for either player and a win of either player find their registers not full. -/
abbrev RoomForPoint (c : Config) (g : GameState) : Prop :=
  ∀ p, FitsWidth c.scoreW (ofPlayer g.score p + 1) ∧ FitsWidth c.gamesW (ofPlayer g.games p + 1)

end Sys2Proof.Machine
end

