-- ==== Sys2Proof/Certificates/Slice0/Obligations.lean ====
section
/-!
DEFINITION. The statements about the machine, and the terms they are written in.
The terms (namespace Sys2Proof.Claims) spell the rules in a form of their own, closed or arithmetical, so that a
statement compares two descriptions and not one with itself.
-/

namespace Sys2Proof.Claims

open Sys2Proof.Machine

/-! ## Runs of operations -/

/-- The operations one after the other; a stop ends the run. -/
def runOps : List Instr → State → Result
  | [], s => .next s
  | i :: rest, s => andThen (exec i s) (runOps rest)

/-- The responses of a run of operations, in order, as long as each answers a next state. -/
def responsesOf : List Instr → State → List (Option Byte)
  | [], _ => []
  | i :: rest, s =>
    match exec i s with
    | .next t => t.resp :: responsesOf rest t
    | _ => []

/-- Everything but the items an operation of the renderer or the sequencer may write is as before. -/
abbrev SameEngineAndDebouncers (s t : State) : Prop :=
  t.cfg = s.cfg ∧ t.deb = s.deb ∧ t.game = s.game ∧ t.history = s.history ∧ t.input = s.input

/-! ## Encoding -/

/-- R84's extra conditions, on the fields of R82. -/
def extraHolds : ExtraCondition → Word → Prop
  | .always, _ => True
  | .unitAtMost4, w => w.toNat / 2 ^ 24 % 16 ≤ 4
  | .pointOnlyWhenEnabled, w => w.toNat / 2 ^ 23 % 2 = 1 ∨ w.toNat / 2 ^ 16 % 16 = 0

/-- R86's list, on `op`, `unit` and `arg` as numbers. -/
abbrev reservedByRule (op unit arg : Nat) : Prop :=
  14 ≤ op ∨
  (op ∈ [0, 3, 7, 8, 9, 10, 11, 12, 13] ∧ unit ≠ 0) ∨
  (op ∈ [1, 2] ∧ 4 < unit) ∨
  (op ∈ [4, 5, 6] ∧ 3 < unit) ∨
  (op ∈ [0, 2, 7, 9, 13] ∧ arg ≠ 0) ∨
  (op ∈ [1, 8, 10, 11] ∧ 2 ≤ arg) ∨
  (op = 3 ∧ 16 ≤ arg) ∨
  (op = 12 ∧ 32 ≤ arg) ∨
  (op = 6 ∧ arg / 2 ^ 12 ≠ 0) ∨
  (op ∈ [4, 5] ∧ (arg / 2 ^ 20 % 8 ≠ 0 ∨ (arg / 2 ^ 23 = 0 ∧ arg / 2 ^ 16 % 16 ≠ 0)))

/-! ## The debouncer as a shift register (R115) -/

/-- R115: "a 3-stage shift register that shifts the mapped sample in on every call, with the agreement test on its
three stages"; the answers of a run, from the two newest stages and the latched level. -/
def shiftRegisterEdges : List Level → Level × Level → Level → List Byte
  | [], _, _ => []
  | m :: rest, (a, c), latched =>
    if a = c ∧ c = m ∧ m ≠ latched then
      (if m = .pressed then 0x01#8 else 0x02#8) :: shiftRegisterEdges rest (c, m) m
    else 0x00#8 :: shiftRegisterEdges rest (c, m) latched

/-- The two newest slots of a ring, older first (R27(b)). -/
def newestTwo (d : Debouncer) : Level × Level := (windowOldestFirst d).2

/-- Samples of one button, one DB.SAMPLE each. -/
def sampleRun (b : Button) (raws : List Bool) : List Instr := raws.map (.dbSample b)

/-- R111: the mapped samples of a run. -/
def mappedRun (c : Config) (b : Button) (raws : List Bool) : List Level :=
  raws.map fun raw => if raw = ofButton c.activeLow b then .released else .pressed

/-- Three equal entries in a row. -/
def hasThreeEqual : List Level → Bool
  | x :: y :: z :: rest => (x == y && y == z) || hasThreeEqual (y :: z :: rest)
  | _ => false

/-! ## The renderer in closed form (R150) -/

/-- R150: the glyph of digit i: a digit value, or none for blank. -/
def closedGlyph (base value : Nat) (dp : Option Nat) (i : Nat) : Option Nat :=
  if value / base ^ i ≠ 0 then some (value / base ^ i % base)
  else if i = 0 ∨ dp.any (i ≤ ·) then some 0
  else none

/-- R145, on the closed form: the table's entry or 0x00, with the point's bit on the digit that carries it. -/
def closedPattern (c : Config) (base value : Nat) (dp : Option Nat) (i : Nat) : Byte :=
  ((closedGlyph base value dp i).elim 0x00#8 fun g => c.segTable.toList.getD g 0x00#8) |||
    (if dp = some i then BitVec.twoPow 8 c.dpBit.val else 0x00#8)

/-- R146: "`SEL(u,i,1)`; `SEG(u,pat_i)`; `HOLD(u)`; `SEL(u,i,0)`; `SEG(u,0x00)`". -/
def digitEvents (u : Display) (i : Nat) (pat : Byte) : List Event :=
  [.sel u i true, .seg u pat, .hold u, .sel u i false, .seg u 0x00#8]

/-- R148: the events of a full refresh, digit 0 first. -/
def renderEvents (c : Config) (u : Display) (base value : Nat) (dp : Option Nat) : List Event :=
  (List.range (digitCount c u)).flatMap fun i => digitEvents u i (closedPattern c base value dp i)

/-- R83, R143: the build's renderer holds the value; an unbounded counter makes it a natural number. -/
abbrev renderHolds (c : Config) (value : Nat) : Prop :=
  c.scoreW = none ∨ c.gamesW = none ∨ value < 2 ^ c.valueW

/-- R83, log 18: a command's value as it is where the build holds it, else some value the build holds. -/
abbrev operandOrFree (c : Config) (given shown : Nat) : Prop :=
  renderHolds c shown ∧ (renderHolds c given → shown = given)

/-- What a render of display u that emits `es` and enables only the digits `on` leaves: those digits off, the
segments clear if anything was drawn, all else as before. -/
structure RenderLeaves (s t : State) (u : Display) (on : Nat → Prop) (es : List Event) : Prop where
  rest : SameEngineAndDebouncers s t
  indicators : t.ind = s.ind
  response : t.resp = some 0x00#8
  trace : t.events = es
  others : ∀ v, v ≠ u → ofDisplay t.sel v = ofDisplay s.sel v ∧ ofDisplay t.seg v = ofDisplay s.seg v
  outputs : (ofDisplay t.sel u).length = (ofDisplay s.sel u).length
  off : ∀ i, on i → (ofDisplay t.sel u)[i]? ≠ some true
  kept : ∀ i, ¬on i → (ofDisplay t.sel u)[i]? = (ofDisplay s.sel u)[i]?
  clear : es ≠ [] → ofDisplay t.seg u = 0x00#8
  untouched : es = [] → ofDisplay t.seg u = ofDisplay s.seg u

/-- R12: "the level of an output at any instant is the value of the last event that wrote it". -/
def replayed (es : List Event) (s : State) : State := es.foldl (fun s e => drive e s) s

/-- How many digits of all four displays are enabled. -/
def enabledDigits (s : State) : Nat :=
  s.sel.s1.count true + s.sel.s2.count true + s.sel.g1.count true + s.sel.g2.count true

/-- R272: the number of holds of an operation that ends. -/
def holdsOf (c : Config) : Instr → Nat
  | .rndDec u _ _ => digitCount c u
  | .rndHex u _ _ => digitCount c u
  | .rndCustom u _ digit =>
    match c.customBound with
    | .le => if digit ≤ digitCount c u then 1 else 0
    | .lt => if digit < digitCount c u then 1 else 0
  | .refresh => (c.refreshOrder.map (digitCount c)).sum
  | .iter _ => (c.refreshOrder.map (digitCount c)).sum
  | _ => 0

/-! ## The scoring engine -/

/-- R172: the deuce threshold, as numbers. -/
def deuceAt (m : Mode) : Nat := if m = .to11 then 10 else 20

/-- R175: does the first server serve? From the total of the two scores alone. -/
abbrev firstServerServes (g : GameState) : Prop :=
  let t := g.score.p1 + g.score.p2
  if deuceAt g.mode ≤ g.score.p1 ∧ deuceAt g.mode ≤ g.score.p2 then t % 2 = 0
  else if g.mode = .to11 then t % 4 < 2
  else t % 10 < 5

/-- R85 and R10: the response that names a player. -/
def namedBy (p : Player) : Byte := if p = .p1 then 0x00#8 else 0x01#8

/-- The player who is not p. -/
def opponent (p : Player) : Player := if p = .p1 then .p2 else .p1

/-- R180 and R182: who wins, on the incremented scores a of p1 and b of p2 in mode m. -/
def winnerOf (m : Mode) (a b : Nat) : Option Player :=
  let t := deuceAt m
  if t ≤ a ∧ t ≤ b then (if b + 2 ≤ a then some .p1 else if a + 2 ≤ b then some .p2 else none)
  else (if t < a then some .p1 else if t < b then some .p2 else none)

/-- The score pair with p's score one higher. -/
def oneMore (p : Player) (sc : PerPlayer Nat) : PerPlayer Nat :=
  if p = .p1 then ⟨sc.p1 + 1, sc.p2⟩ else ⟨sc.p1, sc.p2 + 1⟩

/-- The games pair with w's count one higher. -/
def oneMoreGame (w : Player) (gm : PerPlayer Nat) : PerPlayer Nat :=
  if w = .p1 then ⟨gm.p1 + 1, gm.p2⟩ else ⟨gm.p1, gm.p2 + 1⟩

/-- The pair with p's number replaced. -/
def replacing (p : Player) (n : Nat) (f : PerPlayer Nat) : PerPlayer Nat :=
  if p = .p1 then ⟨n, f.p2⟩ else ⟨f.p1, n⟩

/-- R184, log 8: one more where the register has room for it, some value of the register where it has none. -/
abbrev incrementedOrFree (w : Option Nat) (old new : Nat) : Prop :=
  FitsWidth w new ∧ (FitsWidth w (old + 1) → new = old + 1)

/-- R180 and R182: who wins on p's point. -/
abbrev winnerAfterPoint (p : Player) (g : GameState) : Option Player :=
  winnerOf g.mode (oneMore p g.score).p1 (oneMore p g.score).p2

/-- R180: the Game State after a point for p. -/
def afterPoint (p : Player) (g : GameState) : GameState :=
  match winnerAfterPoint p g with
  | none => { g with score := oneMore p g.score }
  | some w => { g with score := ⟨0, 0⟩, games := oneMoreGame w g.games }

/-- R184: the registers p's point increments are not full: p's score, and the winner's games if it makes a winner. -/
abbrev pointHasRoom (c : Config) (p : Player) (g : GameState) : Prop :=
  FitsWidth c.scoreW (ofPlayer g.score p + 1) ∧
    ∀ w, winnerAfterPoint p g = some w → FitsWidth c.gamesW (ofPlayer g.games w + 1)

/-- R184, R238: p's point meets a full register, p's score or else the games of the winner it makes, and `r` is the
refusal that names it. -/
def pointOverflow (c : Config) (p : Player) (g : GameState) (r : Refusal) : Prop :=
  (¬FitsWidth c.scoreW (ofPlayer g.score p + 1) ∧ r = .scoreOverflow p) ∨
  (FitsWidth c.scoreW (ofPlayer g.score p + 1) ∧ ∃ w, winnerAfterPoint p g = some w ∧
    ¬FitsWidth c.gamesW (ofPlayer g.games w + 1) ∧ r = .gamesOverflow w)

/-- R182: the condition for p to win on a point of p, from scores without a standing win. -/
abbrev pointWins (p : Player) (g : GameState) : Prop :=
  let sc := oneMore p g.score
  if deuceAt g.mode ≤ sc.p1 ∧ deuceAt g.mode ≤ sc.p2 then
    ofPlayer sc p = ofPlayer sc (opponent p) + 2
  else ofPlayer sc p = deuceAt g.mode + 1

/-- R62: the list after a push: the oldest of 32 discarded, then G appended. -/
def historyAfterPush (h : List GameState) (g : GameState) : List GameState :=
  (if h.length = 32 then h.drop 1 else h) ++ [g]

/-- R183's four alternatives: deuce tested before the increment; only the scorer tested; `=` for `>=`; p2 first. -/
structure WinReading where
  deuceBefore : Bool
  scorerOnly : Bool
  exactly : Bool
  p2First : Bool
deriving DecidableEq, Repr

/-- `a` reaches `b` in a reading: at least, or exactly. -/
def reaches (r : WinReading) (a b : Nat) : Bool := if r.exactly then a == b else b ≤ a

/-- Does q win in a reading, p having scored from g? -/
def winsIn (r : WinReading) (p q : Player) (g : GameState) : Bool :=
  let after := oneMore p g.score
  let tested := if r.deuceBefore then g.score else after
  (!r.scorerOnly || p == q) &&
    (if deuceAt g.mode ≤ tested.p1 ∧ deuceAt g.mode ≤ tested.p2 then
      reaches r (ofPlayer after q) (ofPlayer after (opponent q) + 2)
    else reaches r (ofPlayer after q) (deuceAt g.mode + 1))

/-- The winner in a reading. -/
def winnerIn (r : WinReading) (p : Player) (g : GameState) : Option Player :=
  let first : Player := if r.p2First then .p2 else .p1
  if winsIn r p first g then some first
  else if winsIn r p (opponent first) g then some (opponent first)
  else none

/-- A run of setters, in any order. -/
def isSetter : Instr → Bool
  | .scSetMode _ => true
  | .scSetFs _ => true
  | _ => false

/-! ## The iteration as a program of primitives (R216) -/

/-- R212: the five samples, in index order. -/
def sampleOps (raw : BitVec 5) : List Instr :=
  [.dbSample .mode (raw.getLsbD 0), .dbSample .fs (raw.getLsbD 1), .dbSample .undo (raw.getLsbD 2),
   .dbSample .p1 (raw.getLsbD 3), .dbSample .p2 (raw.getLsbD 4)]

/-- R212, R213: the engine operation a button stands for, in the state it is handled in. -/
def eventOp (b : Button) (s : State) : Instr :=
  match b with
  | .mode => .scSetMode (if s.game.mode = .to11 then .to21 else .to11)
  | .fs => .scSetFs (opponent s.game.firstServe)
  | .undo => .scUndo
  | .p1 => .scPoint .p1
  | .p2 => .scPoint .p2

/-- R10, R212: the button that awards a point to p. -/
def pointButton (p : Player) : Button := if p = .p1 then .p1 else .p2

/-- The events one after the other, each on the state left by the one before. -/
def runEvents : List Button → State → Result
  | [], s => .next s
  | b :: rest, s => andThen (exec (eventOp b s) s) (runEvents rest)

/-- R213: the response of a sample that triggers. -/
def triggerResponse (c : Config) : Byte := if c.triggerEdge = .pressed then 0x01#8 else 0x02#8

/-- The triggered buttons, in index order, from the responses of the five samples. -/
def triggered (raw : BitVec 5) (s : State) : List Button :=
  ((([.mode, .fs, .undo, .p1, .p2] : List Button).zip (responsesOf (sampleOps raw) s)).filter
    fun x => x.2 == some (triggerResponse s.cfg)).map Prod.fst

/-- R214: those that are applied. -/
def applied (raw : BitVec 5) (s : State) : List Button :=
  match s.cfg.eventPolicy with
  | .firstOnly => (triggered raw s).take 1
  | .allInOrder => triggered raw s

/-- R85: the response of ITER: bit b for a triggered button, and in bits 7:5 the last applied index, or 7. -/
def iterWord (trig done : List Button) : Nat :=
  32 * (done.getLast?.elim 7 buttonIndex) + (trig.map fun b => 2 ^ buttonIndex b).sum

/-! ## The access table (R46) -/

/-- The columns of the table; `hist` and `top` are one list here (log 4). -/
inductive Component where
  | slot (b : Button)
  | ctr (b : Button)
  | latched (b : Button)
  | segTable
  | outputs (u : Display)
  | ind
  | score
  | games
  | firstServe
  | mode
  | hist
deriving DecidableEq, Repr

/-- Two states hold the same in a component. -/
def agreeOn (s t : State) : Component → Prop
  | .slot b => (ofButton s.deb b).slot0 = (ofButton t.deb b).slot0 ∧
      (ofButton s.deb b).slot1 = (ofButton t.deb b).slot1 ∧ (ofButton s.deb b).slot2 = (ofButton t.deb b).slot2
  | .ctr b => (ofButton s.deb b).ctr = (ofButton t.deb b).ctr
  | .latched b => (ofButton s.deb b).latched = (ofButton t.deb b).latched
  | .segTable => s.cfg.segTable = t.cfg.segTable
  | .outputs u => ofDisplay s.sel u = ofDisplay t.sel u ∧ ofDisplay s.seg u = ofDisplay t.seg u
  | .ind => s.ind = t.ind
  | .score => s.game.score = t.game.score
  | .games => s.game.games = t.game.games
  | .firstServe => s.game.firstServe = t.game.firstServe
  | .mode => s.game.mode = t.game.mode
  | .hist => s.history = t.history

/-- The `w` entries of R46; ITER writes what its constituents write. -/
def writes : Instr → Component → Bool
  | .dbSample b _, .slot c => b == c
  | .dbSample b _, .ctr c => b == c
  | .dbSample b _, .latched c => b == c
  | .rndDec u _ _, .outputs v => u == v
  | .rndHex u _ _, .outputs v => u == v
  | .rndCustom u _ _, .outputs v => u == v
  | .scPoint _, .score => true
  | .scPoint _, .games => true
  | .scPoint _, .hist => true
  | .scUndo, .score => true
  | .scUndo, .games => true
  | .scUndo, .firstServe => true
  | .scUndo, .mode => true
  | .scUndo, .hist => true
  | .scSetMode _, .mode => true
  | .scSetFs _, .firstServe => true
  | .refresh, .outputs _ => true
  | .refresh, .ind => true
  | .iter _, .segTable => false
  | .iter _, _ => true
  | _, _ => false

/-- The `r` entries of R46; ITER reads what its constituents read. -/
def reads : Instr → Component → Bool
  | .dbSample b _, .slot c => b == c
  | .dbSample b _, .ctr c => b == c
  | .dbSample b _, .latched c => b == c
  | .dbQuery b, .latched c => b == c
  | .segEnc _, .segTable => true
  | .rndDec _ _ _, .segTable => true
  | .rndHex _ _ _, .segTable => true
  | .scServe, .score => true
  | .scServe, .firstServe => true
  | .scServe, .mode => true
  | .scPoint _, .score => true
  | .scPoint _, .games => true
  | .scPoint _, .firstServe => true
  | .scPoint _, .mode => true
  | .scPoint _, .hist => true
  | .scUndo, .hist => true
  | .scSetMode _, .score => true
  | .scSetFs _, .score => true
  | .refresh, .segTable => true
  | .refresh, .score => true
  | .refresh, .games => true
  | .refresh, .firstServe => true
  | .refresh, .mode => true
  | .iter _, .outputs _ => false
  | .iter _, .ind => false
  | .iter _, _ => true
  | _, _ => false

/-- The builds agree but for the segment table, which is a column of its own. -/
def sameBuild (s t : State) : Prop := { s.cfg with segTable := t.cfg.segTable } = t.cfg

/-- Both runs go on, and then P holds of their states, or both stop for the same reason. -/
def alike (P : State → State → Prop) : Result → Result → Prop
  | .next s, .next t => P s t
  | .refused a, .refused b => a = b
  | _, _ => False

/-- The same core built with other null sinks and another hold. -/
def rebuilt (sinks : PerDisplay Byte) (hold : Nat) (s : State) : State :=
  { s with cfg := { s.cfg with segSink := sinks, tHold := hold } }

end Sys2Proof.Claims

open Sys2Proof Sys2Proof.Machine Sys2Proof.Claims

/-! ## Encoding -/

/-- R81 to R84: every well-formed instruction, with every operand at every value its field admits, comes back from
its word. -/
def Obligations.DecodeOfEncodeIsTheInstruction : Prop :=
  ∀ i : Instr, i.wellFormed = true → decode (encode i) = .op i

/-- R82, R83: a word that decodes is the one word of its instruction, which is well formed. -/
def Obligations.EncodeOfDecodeIsTheWord : Prop :=
  ∀ (w : Word) (i : Instr), decode w = .op i → i.wellFormed = true ∧ encode i = w

/-- R84: a word decodes to a row exactly when match, mask and extra condition say so; two words with one `op` that
decode, decode to one row ("The operation is selected by `op` alone"). -/
def Obligations.DecoderFollowsTheOpcodeMap : Prop :=
  (∀ r ∈ opcodeMap, ∀ w : Word,
    (∃ i, decode w = .op i ∧ i.mnemonic = r.mnemonic) ↔ (w &&& r.mask = r.pattern ∧ extraHolds r.extra w)) ∧
  (∀ (w w' : Word) (i j : Instr), w.toNat / 2 ^ 28 = w'.toNat / 2 ^ 28 → decode w = .op i → decode w' = .op j →
    i.mnemonic = j.mnemonic)

/-- R86: the reserved words are those of its list. -/
def Obligations.ReservedWordsAreTheListedOnes : Prop :=
  ∀ w : Word, (∃ why, decode w = .reserved why) ↔
    reservedByRule (w.toNat / 2 ^ 28) (w.toNat / 2 ^ 24 % 16) (w.toNat % 2 ^ 24)

/-- The worked words of `30_encoding.md` R91, written out there from the formats, and its five reserved ones. -/
def Obligations.WorkedWordsDecode : Prop :=
  decode 0x00000000#32 = .op .nop ∧ decode 0x13000001#32 = .op (.dbSample .p1 true) ∧
  decode 0x24000000#32 = .op (.dbQuery .p2) ∧ decode 0x3000000A#32 = .op (.segEnc 10#4) ∧
  decode 0x4000002A#32 = .op (.rndDec .s1 42 none) ∧ decode 0x418104D2#32 = .op (.rndDec .s2 1234 (some 1)) ∧
  decode 0x5000BEEF#32 = .op (.rndHex .s1 0xBEEF none) ∧ decode 0x62000080#32 = .op (.rndCustom .g1 0x80#8 0) ∧
  decode 0x70000000#32 = .op .scServe ∧ decode 0x80000001#32 = .op (.scPoint .p2) ∧
  decode 0x90000000#32 = .op .scUndo ∧ decode 0xA0000001#32 = .op (.scSetMode .to21) ∧
  decode 0xB0000001#32 = .op (.scSetFs .p2) ∧ decode 0xC0000008#32 = .op (.iter 0b01000#5) ∧
  decode 0xD0000000#32 = .op .refresh ∧
  decode 0xE0000000#32 = .reserved .unassignedOp ∧ decode 0x15000000#32 = .reserved .unitOutOfRange ∧
  decode 0x44000000#32 = .reserved .unitOutOfRange ∧ decode 0x70000001#32 = .reserved .mustBeZero ∧
  decode 0x40010000#32 = .reserved .pointIndexWithoutEnable

/-! ## The step and reset -/

/-- R80: a command word that decodes to i is executed as i, on the state with the word taken from the host's list
(the list is the model's, log 1). -/
def Obligations.StepRunsTheDecodedInstruction : Prop :=
  ∀ (s : State) (w : Word) (rest : List HostInput) (i : Instr),
    s.input = .command w :: rest → decode w = .op i → step s = exec i { s with input := rest }

/-- R86 and R238, under the model's readings (log 6): a reserved word runs as NOP does, or the model refuses it. -/
def Obligations.ReservedWordRunsAsNopOrIsRefused : Prop :=
  ∀ (s : State) (w : Word) (rest : List HostInput) (why : ReservedReason),
    s.input = .command w :: rest → decode w = .reserved why →
    (s.cfg.reservedReading = .hardware →
      step s = .next { s with input := rest, resp := some 0x00#8, events := [] } ∧
      step s = exec .nop { s with input := rest }) ∧
    (s.cfg.reservedReading = .refuse → step s = .refused (.reservedEncoding why))

/-- R260, R44: on reset every item holds its reset value, whatever it held; the build stays. That the host's later
inputs stay (log 2) and that an idle core does not change (log 1) is the model's choice. -/
def Obligations.ResetLeavesTheResetValues : Prop :=
  (∀ (s : State) (rest : List HostInput), s.input = .reset :: rest →
    ∃ t, step s = .next t ∧ t.cfg = s.cfg ∧ t.input = rest ∧
      t.game = ⟨⟨0, 0⟩, ⟨0, 0⟩, .p1, .to11⟩ ∧ t.history = [] ∧ topIndex t = -1 ∧
      (∀ b, ofButton t.deb b = ⟨.released, .released, .released, 0, .released⟩) ∧
      (∀ u, ofDisplay t.sel u = List.replicate (ofDisplay s.cfg.digits u) false ∧ ofDisplay t.seg u = 0x00#8) ∧
      t.ind = ⟨false, false⟩) ∧
  (∀ s : State, s.input = [] → step s = .next s)

/-- R44: `State.reset` holds the same values, for the digit counts of R7 and the defaults of R8, each named. The model's
choices: `ACTIVE_LOW` and `T_HOLD` (log 5), the readings (logs 6, 7, 8), no response, no events and no inputs (logs 1,
3). -/
def Obligations.ResetStateHoldsTheDefaults : Prop :=
  State.reset.game = ⟨⟨0, 0⟩, ⟨0, 0⟩, .p1, .to11⟩ ∧ State.reset.history = [] ∧ topOut State.reset = 0b111111#6 ∧
  (∀ b, ofButton State.reset.deb b = ⟨.released, .released, .released, 0, .released⟩) ∧
  State.reset.sel = ⟨[false, false], [false, false], [false], [false]⟩ ∧
  State.reset.seg = ⟨0x00#8, 0x00#8, 0x00#8, 0x00#8⟩ ∧ State.reset.ind = ⟨false, false⟩ ∧
  State.reset.resp = none ∧ State.reset.events = [] ∧ State.reset.input = [] ∧
  let c := State.reset.cfg
  c.Wf ∧ c.digits = ⟨2, 2, 1, 1⟩ ∧
  c.segTable.toList = [0x3F#8, 0x06#8, 0x5B#8, 0x4F#8, 0x66#8, 0x6D#8, 0x7D#8, 0x07#8, 0x7F#8, 0x6F#8,
    0x77#8, 0x7C#8, 0x39#8, 0x5E#8, 0x79#8, 0x71#8] ∧
  c.dpBit = 7 ∧ (∀ u, ofDisplay c.segSink u = 0x00#8) ∧ c.scoreW = some 8 ∧ c.gamesW = some 8 ∧ c.valueW = 16 ∧
  nMax = 15 ∧ c.customBound = .le ∧ c.eventPolicy = .firstOnly ∧ c.triggerEdge = .pressed ∧
  c.refreshOrder = [.s1, .s2, .g1, .g2] ∧
  (∀ b, ofButton c.activeLow b = false) ∧ c.tHold = 1 ∧
  c.reservedReading = .hardware ∧ c.boundaryReading = .hardware ∧ c.overflowReading = .hardware

/-! ## The debouncer -/

/-- R112, R64: DB.SAMPLE completes on every state and operand. The mapped sample goes into the slot at the old
position, the position advances modulo 3, the level is latched and the edge returned exactly when the three slots
agree on the other level; nothing else of the state changes. R112's example. -/
def Obligations.SampleWritesTheRingAndLatches : Prop :=
  (∀ b raw, decode (encode (.dbSample b raw)) = .op (.dbSample b raw) ∧
    (encode (.dbSample b raw)).toNat = 2 ^ 28 + 2 ^ 24 * buttonIndex b + raw.toNat) ∧
  (∀ (c : Config) (b : Button), ofButton c.activeLow b = false →
    responsesOf (List.replicate 3 (.dbSample b true)) (.resetWith c) = [some 0x00#8, some 0x00#8, some 0x01#8] ∧
    ∃ t, runOps (List.replicate 3 (.dbSample b true)) (.resetWith c) = .next t ∧
      ofButton t.deb b = ⟨.pressed, .pressed, .pressed, 0, .pressed⟩) ∧
  ∀ (b : Button) (raw : Bool) (s : State), ∃ t, exec (.dbSample b raw) s = .next t ∧
    t = { s with deb := t.deb, resp := t.resp, events := [] } ∧
    (∀ c, c ≠ b → ofButton t.deb c = ofButton s.deb c) ∧
    let m : Level := if raw = ofButton s.cfg.activeLow b then .released else .pressed
    let d := ofButton s.deb b
    let d' := ofButton t.deb b
    d'.slot0 = (if d.ctr.val = 0 then m else d.slot0) ∧ d'.slot1 = (if d.ctr.val = 1 then m else d.slot1) ∧
    d'.slot2 = (if d.ctr.val = 2 then m else d.slot2) ∧ d'.ctr.val = (d.ctr.val + 1) % 3 ∧
    (if d'.slot0 = d'.slot1 ∧ d'.slot1 = d'.slot2 ∧ d'.slot0 ≠ d.latched then
      d'.latched = d'.slot0 ∧ t.resp = some (if d'.slot0 = .pressed then 0x01#8 else 0x02#8)
    else d'.latched = d.latched ∧ t.resp = some 0x00#8)

/-- The spec's inference R113 with R27(b): read oldest first, the ring shifts the mapped sample in; the level moves,
and the edge is reported, exactly when the two newest old samples and the new one are all of the other level. -/
def Obligations.HysteresisFollowsTheLastThreeSamples : Prop :=
  ∀ (b : Button) (raw : Bool) (s : State) (a c e : Level),
    windowOldestFirst (ofButton s.deb b) = (a, c, e) →
    ∃ t, exec (.dbSample b raw) s = .next t ∧
      let m : Level := if raw = ofButton s.cfg.activeLow b then .released else .pressed
      let was := (ofButton s.deb b).latched
      windowOldestFirst (ofButton t.deb b) = (c, e, m) ∧
      (t.resp = some 0x01#8 ↔ was = .released ∧ c = .pressed ∧ e = .pressed ∧ m = .pressed) ∧
      (t.resp = some 0x02#8 ↔ was = .pressed ∧ c = .released ∧ e = .released ∧ m = .released) ∧
      (t.resp = some 0x00#8 ∨ t.resp = some 0x01#8 ∨ t.resp = some 0x02#8) ∧
      ((ofButton t.deb b).latched = .pressed ↔ t.resp = some 0x01#8 ∨ (t.resp = some 0x00#8 ∧ was = .pressed))

/-- The spec's inference R115: over any run of samples of one button, from any window, the responses are those of a
shift register holding the two newest samples and the latched level. -/
def Obligations.RingAnswersAsAShiftRegister : Prop :=
  ∀ (b : Button) (raws : List Bool) (s : State),
    responsesOf (sampleRun b raws) s =
      (shiftRegisterEdges (mappedRun s.cfg b raws) (newestTwo (ofButton s.deb b)) (ofButton s.deb b).latched).map some

/-- The spec's inference R114(a): over any run of samples of one button the edges that are not None alternate, the
first being Pressed when the latched level is released and Released when it is pressed. -/
def Obligations.EdgesOfAButtonAlternate : Prop :=
  ∀ (b : Button) (raws : List Bool) (s : State),
    let edges := (responsesOf (sampleRun b raws) s).filter (· ≠ some 0x00#8)
    edges = (List.range edges.length).map fun k =>
      if (if (ofButton s.deb b).latched = .released then k else k + 1) % 2 = 0 then some 0x01#8 else some 0x02#8

/-- The spec's inference R114(e): an input that, with the two newest samples before it, never gives three equal
samples in a row reports no edge, and the latched level holds. -/
def Obligations.NoEdgeWithoutThreeEqualSamples : Prop :=
  ∀ (b : Button) (raws : List Bool) (s : State),
    hasThreeEqual ((newestTwo (ofButton s.deb b)).1 :: (newestTwo (ofButton s.deb b)).2 :: mappedRun s.cfg b raws)
      = false →
    ∃ t, runOps (sampleRun b raws) s = .next t ∧
      responsesOf (sampleRun b raws) s = List.replicate raws.length (some 0x00#8) ∧
      (ofButton t.deb b).latched = (ofButton s.deb b).latched

/-- R116: DB.QUERY completes, returns the latched level, and changes nothing; after reset it returns released. -/
def Obligations.QueryReturnsTheLatchedLevel : Prop :=
  (∀ b, decode (encode (.dbQuery b)) = .op (.dbQuery b) ∧
    (encode (.dbQuery b)).toNat = 2 * 2 ^ 28 + 2 ^ 24 * buttonIndex b) ∧
  (∀ (b : Button) (s : State), exec (.dbQuery b) s =
    .next { s with resp := some (if (ofButton s.deb b).latched = .pressed then 0x01#8 else 0x00#8), events := [] }) ∧
  (∀ (c : Config) (b : Button), ∃ t, exec (.dbQuery b) (.resetWith c) = .next t ∧ t.resp = some 0x00#8)

/-- The spec's inference R117: samples of two buttons commute, in what they leave and in what each answers. -/
def Obligations.SamplesOfTwoButtonsCommute : Prop :=
  ∀ (b c : Button) (x y : Bool) (s : State), b ≠ c →
    ∃ t t' u u', exec (.dbSample b x) s = .next t ∧ exec (.dbSample c y) t = .next t' ∧
      exec (.dbSample c y) s = .next u ∧ exec (.dbSample b x) u = .next u' ∧
      t.resp = u'.resp ∧ t'.resp = u.resp ∧ t' = { u' with resp := t'.resp }

/-! ## The segment encoder -/

/-- R133: SEG.ENC completes for every digit value with the table's entry, and changes nothing; R133's example. -/
def Obligations.SegmentEncoderLooksUpTheTable : Prop :=
  (∀ d : BitVec 4, decode (0x30000000#32 ||| d.setWidth 32) = .op (.segEnc d)) ∧
  (∀ (d : BitVec 4) (s : State), ∃ pat, s.cfg.segTable.toList[d.toNat]? = some pat ∧
    exec (.segEnc d) s = .next { s with resp := some pat, events := [] }) ∧
  exec (.segEnc 10#4) State.reset = .next { State.reset with resp := some 0x77#8 }

/-! ## The renderer -/

/-- R144 to R149 by R150's closed form: RND.DEC and RND.HEX complete for every value, point and state; their events
are five for each of the N digits, least significant first, and only their display is written. The value shown is the
command's where `VALUE_W` holds it; past it, it is some value that `VALUE_W` holds (the model's choice, log 18). -/
def Obligations.NumericRenderDrawsItsClosedForm : Prop :=
  ∀ (u : Display) (value : Nat) (dp : Option Nat) (s : State),
    (∃ t v, exec (.rndDec u value dp) s = .next t ∧ operandOrFree s.cfg value v ∧
      RenderLeaves s t u (· < digitCount s.cfg u) (renderEvents s.cfg u 10 v dp)) ∧
    (∃ t v, exec (.rndHex u value dp) s = .next t ∧ operandOrFree s.cfg value v ∧
      RenderLeaves s t u (· < digitCount s.cfg u) (renderEvents s.cfg u 16 v dp))

/-- R152, R153: RND.CUSTOM within the display draws its one digit; past it nothing happens; at `digit = N` under `le`
the no-select trace or the refusal, as the model reads R153 (log 7); under `lt` nothing. -/
def Obligations.CustomRenderChecksItsDigit : Prop :=
  ∀ (u : Display) (pattern : Byte) (digit : Nat) (s : State),
    (digit < digitCount s.cfg u → ∃ t, exec (.rndCustom u pattern digit) s = .next t ∧
      RenderLeaves s t u (· = digit) (digitEvents u digit pattern)) ∧
    (digitCount s.cfg u < digit → exec (.rndCustom u pattern digit) s =
      .next { s with resp := some 0x00#8, events := [] }) ∧
    (digit = digitCount s.cfg u →
      (s.cfg.customBound = .lt → exec (.rndCustom u pattern digit) s =
        .next { s with resp := some 0x00#8, events := [] }) ∧
      (s.cfg.customBound = .le → s.cfg.boundaryReading = .hardware →
        ∃ t, exec (.rndCustom u pattern digit) s = .next t ∧
          RenderLeaves s t u (fun _ => False) [.seg u pattern, .hold u, .seg u 0x00#8]) ∧
      (s.cfg.customBound = .le → s.cfg.boundaryReading = .refuse →
        exec (.rndCustom u pattern digit) s = .refused (.customBoundary u)))

/-- R146 and the spec's inference R155: from dark outputs, at every moment of every operation at most one digit of
the whole appliance is enabled, and the outputs at its end are what its events wrote. -/
def Obligations.AtMostOneDigitIsEverEnabled : Prop :=
  ∀ (i : Instr) (s t : State), OutputsDark s → exec i s = .next t →
    (∀ k, enabledDigits (replayed (t.events.take k) s) ≤ 1) ∧
    (replayed t.events s).sel = t.sel ∧ (replayed t.events s).seg = t.seg ∧ (replayed t.events s).ind = t.ind

/-- R272: an operation that ends has held for its number of digits, and no longer; REFRESH and ITER hold six times
in the appliance of R3. The measure of time is the model's (log 11): no more than the holds, in a
unit of its own, where R272 gives lower bounds. -/
def Obligations.DurationsCountTheHolds : Prop :=
  (∀ (i : Instr) (s t : State), exec i s = .next t → holdTime t = holdsOf s.cfg i * s.cfg.tHold) ∧
  (∀ (c : Config) (raw : BitVec 5), c.digits = ⟨2, 2, 1, 1⟩ → c.refreshOrder.Perm [.s1, .s2, .g1, .g2] →
    holdsOf c .refresh = 6 ∧ holdsOf c (.iter raw) = 6)

/-- R154 and D6, D4 and R272 (`SEG_SINK`: "affects pins only, not events"; `T_HOLD`: "never read by any rule of the
model"): no operation reads the null sinks or the length of the hold. -/
def Obligations.NullSinksAndHoldLengthAreNotRead : Prop :=
  ∀ (i : Instr) (sinks : PerDisplay Byte) (hold : Nat) (s : State),
    alike (fun t u => u = rebuilt sinks hold t) (exec i s) (exec i (rebuilt sinks hold s))

/-! ## The scoring engine -/

/-- R173, R174: SC.SERVE completes on every state with the player the floor of the total over the interval gives,
the interval being 1 in deuce, else 2 or 5; it is never 0; nothing changes; the sum of two scores fits one bit more than
a score. R174's example. -/
def Obligations.ServerByElapsedIntervals : Prop :=
  decode 0x70000000#32 = .op .scServe ∧
  (∀ s : State, s.game = ⟨⟨1, 1⟩, ⟨0, 0⟩, .p1, .to11⟩ → ∃ t, exec .scServe s = .next t ∧ t.resp = some 0x01#8) ∧
  (∀ (s : State) (k : Nat), s.cfg.scoreW = some k → GameFits s.cfg s.game →
    s.game.score.p1 + s.game.score.p2 < 2 ^ (k + 1)) ∧
  (∀ s : State,
    let g := s.game
    let every := if deuceAt g.mode ≤ g.score.p1 ∧ deuceAt g.mode ≤ g.score.p2 then 1
      else if g.mode = .to11 then 2 else 5
    every ≠ 0 ∧ exec .scServe s =
      .next { s with resp := some (namedBy (if (g.score.p1 + g.score.p2) / every % 2 = 0 then g.firstServe
        else opponent g.firstServe)), events := [] })

/-- The spec's inference R175: the server is known from the total's residue: period 4 in to_11, 10 in to_21, 2 in
deuce. -/
def Obligations.ServerAlternatesWithTheTotal : Prop :=
  ∀ s : State, ∃ t, exec .scServe s = .next t ∧
    (firstServerServes s.game → t.resp = some (namedBy s.game.firstServe)) ∧
    (¬firstServerServes s.game → t.resp = some (namedBy (opponent s.game.firstServe)))

/-- R180: with room in the registers the point increments SC.POINT completes: the pre-call state is pushed, the score
incremented, a win settled in the same step; nothing else of the state changes. -/
def Obligations.PointPushesIncrementsAndSettles : Prop :=
  ∀ (p : Player) (s : State), pointHasRoom s.cfg p s.game →
    exec (.scPoint p) s = .next { s with
      game := afterPoint p s.game, history := historyAfterPush s.history s.game, resp := some 0x00#8, events := [] }

/-- R181: the push always happens, win or no win: the newest snapshot is the whole pre-call Game State, `top` grows
by one unless it was 31, mode and first server are kept, and with the player's score one more the other score is kept
unless somebody wins and both scores are 0. That past a full register the player's score is some value of that register
is no part of R181: it is the model's choice (log 8). -/
def Obligations.PointPushesThePreCallState : Prop :=
  ∀ (p : Player) (s t : State), s.history.length ≤ 32 → exec (.scPoint p) s = .next t →
    t.history.getLast? = some s.game ∧
    topIndex t = (if topIndex s = 31 then 31 else topIndex s + 1) ∧
    t.game.mode = s.game.mode ∧ t.game.firstServe = s.game.firstServe ∧
    ∃ n, incrementedOrFree s.cfg.scoreW (ofPlayer s.game.score p) n ∧
      t.game.score = (if (winnerOf s.game.mode (replacing p n s.game.score).p1
        (replacing p n s.game.score).p2).isSome then ⟨0, 0⟩ else replacing p n s.game.score)

/-- R182: the evaluation is made on the incremented scores and the current mode; from a state without a standing win
the scorer p wins exactly when, after the increment, p is at the target and not both are at the threshold, or both are
and p leads by exactly 2; the other player never wins; if nobody wins, there is again no standing win. -/
def Obligations.OnlyTheScorerWinsAndExactlyAtTheTarget : Prop :=
  (∀ (p : Player) (s : State), pointHasRoom s.cfg p s.game →
    ∃ t, exec (.scPoint p) s = .next t ∧ t.game = afterPoint p s.game) ∧
  ∀ (p : Player) (s : State), NoStandingWin s.game → pointHasRoom s.cfg p s.game →
    ∃ t, exec (.scPoint p) s = .next t ∧ t.game.games = (if pointWins p s.game then oneMoreGame p s.game.games
        else s.game.games) ∧
      t.game.score = (if pointWins p s.game then ⟨0, 0⟩ else oneMore p s.game.score) ∧ NoStandingWin t.game

/-- R183: on a state without a standing win every reading of the win evaluation that the source leaves open gives
the winner SC.POINT settles. -/
def Obligations.WinReadingsAgreeWithoutAStandingWin : Prop :=
  ∀ (r : WinReading) (p : Player) (s : State), NoStandingWin s.game → pointHasRoom s.cfg p s.game →
    ∃ t, exec (.scPoint p) s = .next t ∧
      t.game = (match winnerIn r p s.game with
        | none => { s.game with score := oneMore p s.game.score }
        | some w => { s.game with score := ⟨0, 0⟩, games := oneMoreGame w s.game.games })

/-- R184 under the model's reading `refuse` (log 8): a point at a full score register, and a win at a full games
register, are refused, each under its name. -/
def Obligations.FullRegistersRefuseThePoint : Prop :=
  ∀ (p : Player) (s : State), s.cfg.overflowReading = .refuse →
    (∀ k, s.cfg.scoreW = some k → ofPlayer s.game.score p = 2 ^ k - 1 →
      exec (.scPoint p) s = .refused (.scoreOverflow p)) ∧
    (∀ k w, s.cfg.gamesW = some k → FitsWidth s.cfg.scoreW (ofPlayer s.game.score p + 1) →
      winnerAfterPoint p s.game = some w →
      ofPlayer s.game.games w = 2 ^ k - 1 → exec (.scPoint p) s = .refused (.gamesOverflow w))

/-- The model's reading `hardware` of R184 (log 8): SC.POINT completes on every state and pushes; the score becomes one
more, or past a full register some value of the register, and the evaluation goes by that score; the winner's games
likewise. Counters that fitted fit, and nobody has a standing win. -/
def Obligations.PointCompletesUnderTheHardwareReading : Prop :=
  ∀ (p : Player) (s : State), s.cfg.overflowReading = .hardware → GameFits s.cfg s.game →
    ∃ t n, exec (.scPoint p) s = .next t ∧ t.history = historyAfterPush s.history s.game ∧
      t = { s with game := t.game, history := t.history, resp := some 0x00#8, events := [] } ∧
      incrementedOrFree s.cfg.scoreW (ofPlayer s.game.score p) n ∧
      (match winnerOf s.game.mode (replacing p n s.game.score).p1 (replacing p n s.game.score).p2 with
        | none => t.game = { s.game with score := replacing p n s.game.score }
        | some w => ∃ m, incrementedOrFree s.cfg.gamesW (ofPlayer s.game.games w) m ∧
            t.game = { s.game with score := ⟨0, 0⟩, games := replacing w m s.game.games }) ∧
      GameFits s.cfg t.game ∧ NoStandingWin t.game

/-- R190: SC.UNDO completes on every state: with a snapshot, the whole Game State is the newest one and the
snapshot is gone; with none, nothing changes. R190's example. -/
def Obligations.UndoRestoresTheNewestSnapshot : Prop :=
  decode 0x90000000#32 = .op .scUndo ∧
  (∀ (s : State) (older : List GameState) (g : GameState), s.history = older ++ [g] →
    exec .scUndo s = .next { s with game := g, history := older, resp := some 0x00#8, events := [] }) ∧
  (∀ s : State, s.history = [] → exec .scUndo s = .next { s with resp := some 0x00#8, events := [] }) ∧
  (∀ s : State, s.game = ⟨⟨10, 9⟩, ⟨0, 0⟩, .p1, .to11⟩ → FitsWidth s.cfg.scoreW 11 → FitsWidth s.cfg.gamesW 1 →
    ∃ t, exec (.scPoint .p1) s = .next t ∧ t.game = ⟨⟨0, 0⟩, ⟨1, 0⟩, .p1, .to11⟩ ∧
      ∃ u, exec .scUndo t = .next u ∧ u.game = s.game)

/-- The spec's inference R191(a) with C9: SC.POINT then SC.UNDO leaves the Game State as it was, and the snapshots
too, except that a full history has lost its oldest. -/
def Obligations.UndoTakesBackThePoint : Prop :=
  ∀ (p : Player) (s t : State), exec (.scPoint p) s = .next t →
    exec .scUndo t = .next { s with
      history := if s.history.length = 32 then s.history.drop 1 else s.history, resp := some 0x00#8, events := [] }

/-- R277 with the spec's inference R191(d): after any points, as many undos as there were points, up to 32, lead back
through the states before each of them; from an empty history, 32 undos (or as many as there were points) leave it
empty, and one more changes nothing. -/
def Obligations.UndosWalkBackThePoints : Prop :=
  ∀ (ps : List Player) (s t : State) (n : Nat), s.history.length ≤ 32 →
    runOps (ps.map .scPoint) s = .next t → n ≤ ps.length → n ≤ 32 →
    ∃ u v, runOps (List.replicate n .scUndo) t = .next u ∧
      runOps ((ps.take (ps.length - n)).map .scPoint) s = .next v ∧ u.game = v.game ∧
      (s.history = [] → n = min ps.length 32 → u.history = [] ∧ exec .scUndo u =
        .next { u with resp := some 0x00#8, events := [] })

/-- R192: SC.SETMODE completes on every state: at 0-0 the mode is written, games and history kept; otherwise
nothing changes; at 0-0 no mode makes a standing win. -/
def Obligations.SetModeActsOnlyAtZeroAll : Prop :=
  (decode 0xA0000000#32 = .op (.scSetMode .to11) ∧ decode 0xA0000001#32 = .op (.scSetMode .to21)) ∧
  (∀ (m : Mode) (g : GameState), g.score = ⟨0, 0⟩ → NoStandingWin { g with mode := m }) ∧
  ∀ (m : Mode) (s : State), exec (.scSetMode m) s = .next { s with
    game := if s.game.score = ⟨0, 0⟩ then { s.game with mode := m } else s.game, resp := some 0x00#8, events := [] }

/-- R194: SC.SETFS completes on every state: at 0-0 the first server is written, SC.SERVE names it and the next
REFRESH shows it; otherwise nothing changes. -/
def Obligations.SetFirstServeActsOnlyAtZeroAll : Prop :=
  (decode 0xB0000000#32 = .op (.scSetFs .p1) ∧ decode 0xB0000001#32 = .op (.scSetFs .p2)) ∧
  ∀ (p : Player) (s : State), ∃ t, exec (.scSetFs p) s = .next t ∧ t = { s with
    game := if s.game.score = ⟨0, 0⟩ then { s.game with firstServe := p } else s.game, resp := some 0x00#8,
    events := [] } ∧
    (s.game.score = ⟨0, 0⟩ → (∃ u, exec .scServe t = .next u ∧ u.resp = some (namedBy p)) ∧
      ∃ v, exec .refresh t = .next v ∧ v.ind = ⟨p == .p1, p == .p2⟩)

/-- R193: with some score nonzero, any number of setters in any order changes nothing but the response; at 0-0 a
setter twice is that setter once. -/
def Obligations.SettersAreIdempotentAndLocked : Prop :=
  (∀ (ops : List Instr) (s : State), (∀ i ∈ ops, isSetter i = true) → s.game.score ≠ ⟨0, 0⟩ →
    ∃ t, runOps ops s = .next t ∧ t = { s with resp := t.resp, events := t.events } ∧
      ∀ r ∈ responsesOf ops s, r = some 0x00#8) ∧
  (∀ (i : Instr) (s : State), isSetter i = true → s.game.score = ⟨0, 0⟩ → runOps [i, i] s = runOps [i] s)

/-- The spec's inference R195: having no standing win is a condition on the score pair: outside deuce the lesser
score is below the threshold and the greater at most at it; in deuce they differ by at most 1. -/
def Obligations.NoStandingWinIsAConditionOnThePair : Prop :=
  ∀ g : GameState, NoStandingWin g ↔
    let a := g.score.p1
    let b := g.score.p2
    let t := deuceAt g.mode
    (min a b < t ∧ max a b ≤ t) ∨ (t ≤ min a b ∧ a ≤ b + 1 ∧ b ≤ a + 1)

/-! ## The history store and the packed state -/

/-- R62, R63 on the store of R39 and R40: what a push and a pop do to the index and to each entry; the popped entry
keeps its bits. -/
def Obligations.StorePushAndPopWriteTheirEntry : Prop :=
  ∀ (h : HistoryStore) (g : GameState), h.Valid →
    (h.top = 31 → (storePush h g).top = 31 ∧ (storePush h g).entries[31] = g ∧
      ∀ k, k < 31 → (storePush h g).entries[k]? = h.entries[k + 1]?) ∧
    (h.top < 31 → (storePush h g).top = h.top + 1 ∧ (storePush h g).entries[(h.top + 1).toNat]? = some g ∧
      ∀ k : Nat, (k : Int) ≤ h.top → (storePush h g).entries[k]? = h.entries[k]?) ∧
    (h.top = -1 → storePop h = none) ∧
    (0 ≤ h.top → ∃ e, h.entries[h.top.toNat]? = some e ∧ storePop h = some (e, { h with top := h.top - 1 }))

/-- The spec's inference R41 (log 4): the list the step holds is the store seen through its valid snapshots, for
every content of the stale entries. -/
def Obligations.HistoryListRefinesTheStore : Prop :=
  ∀ (h : HistoryStore) (g : GameState), h.Valid →
    (storePush h g).Valid ∧ storeSnapshots (storePush h g) = historyAfterPush (storeSnapshots h) g ∧
    (∀ (p : Player) (s t : State), s.history = storeSnapshots h → exec (.scPoint p) s = .next t →
      t.history = storeSnapshots (storePush h s.game)) ∧
    (∀ (s t : State), s.history = storeSnapshots h → exec .scUndo s = .next t →
      match storePop h with
      | none => t.game = s.game ∧ t.history = storeSnapshots h
      | some (e, h') => t.game = e ∧ t.history = storeSnapshots h' ∧ h'.Valid)

/-- R37: a packed Game State fits `GS_W` bits and unpacks to itself, for every pair of widths. -/
def Obligations.UnpackInvertsPack : Prop :=
  ∀ (sw gw : Nat) (g : GameState),
    (g.score.p1 < 2 ^ sw ∧ g.score.p2 < 2 ^ sw ∧ g.games.p1 < 2 ^ gw ∧ g.games.p2 < 2 ^ gw) →
    packGame sw gw g < 2 ^ packedWidth sw gw ∧ unpackGame sw gw (packGame sw gw g) = g

/-! ## The iteration -/

/-- R210: NOP completes on every state, answers 0, emits nothing (so it holds for no time) and changes nothing. -/
def Obligations.NopDoesNothing : Prop :=
  decode 0x00000000#32 = .op .nop ∧
  ∀ s : State, exec .nop s = .next { s with resp := some 0x00#8, events := [] }

/-- R211: REFRESH completes on every state: one `IND` naming the server, then the four renders in `REFRESH_ORDER` of
the scores and games in decimal with no point; nothing but the outputs is written, and dark displays are dark
again. -/
def Obligations.RefreshShowsTheGameState : Prop :=
  ∀ s : State, ∃ t p, exec .refresh s = .next t ∧ SameEngineAndDebouncers s t ∧ t.resp = some 0x00#8 ∧
    (∃ u, exec .scServe s = .next u ∧ u.resp = some (namedBy p)) ∧ t.ind = ⟨p == .p1, p == .p2⟩ ∧
    let shown (u : Display) : Nat := match u with
      | .s1 => s.game.score.p1
      | .s2 => s.game.score.p2
      | .g1 => s.game.games.p1
      | .g2 => s.game.games.p2
    t.events = .ind (p == .p1) (p == .p2) ::
      s.cfg.refreshOrder.flatMap (fun u => renderEvents s.cfg u 10 (shown u) none) ∧
    (OutputsDark s → t.sel = s.sel ∧ t.seg = s.seg)

/-- R32: the indicators are written by a refresh alone (that of REFRESH, or the one that ends ITER); after it
exactly one is on, the server's; at reset both are off. -/
def Obligations.IndicatorsShowTheServerAfterARefresh : Prop :=
  (∀ c, (State.resetWith c).ind = ⟨false, false⟩) ∧
  ∀ (i : Instr) (s t : State), exec i s = .next t →
    match i with
    | .refresh => ∃ p u, t.ind = ⟨p == .p1, p == .p2⟩ ∧ exec .scServe t = .next u ∧ u.resp = some (namedBy p)
    | .iter _ => ∃ p u, t.ind = ⟨p == .p1, p == .p2⟩ ∧ exec .scServe t = .next u ∧ u.resp = some (namedBy p)
    | _ => t.ind = s.ind

/-- R212, R214 and the spec's inference R216: ITER is the five samples, the engine operations of the applied buttons
and REFRESH, executed with nothing in between, with `applied ++ trig` as its response; it stops where they stop. -/
def Obligations.IterIsItsProgramOfPrimitives : Prop :=
  ∀ (raw : BitVec 5) (s : State),
    exec (.iter raw) s =
      andThen (runOps (sampleOps raw) s) fun a =>
        andThen (runEvents (applied raw s) a) fun b =>
          andThen (exec .refresh b) fun c =>
            .next { c with resp := some (BitVec.ofNat 8 (iterWord (triggered raw s) (applied raw s))) }

/-- R212: with room in the registers for a point from the current state and from every snapshot, or under the
hardware's reading of an overflow (log 8), ITER completes, under either policy; every button has been sampled, and the
response says which triggered. -/
def Obligations.IterationCompletes : Prop :=
  ∀ (raw : BitVec 5) (s : State),
    (s.cfg.overflowReading = .hardware ∨ ∀ g ∈ s.game :: s.history, RoomForPoint s.cfg g) →
    ∃ t, exec (.iter raw) s = .next t ∧
      (∀ b, ∃ u, exec (.dbSample b (raw.getLsbD (buttonIndex b))) s = .next u ∧
        ofButton t.deb b = ofButton u.deb b ∧
        ∃ v, t.resp = some v ∧ (v.getLsbD (buttonIndex b) = true ↔ u.resp = some (triggerResponse s.cfg)))

/-- R214 under `first_only`: at most one event is applied in an iteration, that of the lowest triggered button, on
the state before the iteration; with no trigger the Game State and its history stay. -/
def Obligations.FirstOnlyAppliesAtMostOneEvent : Prop :=
  ∀ (raw : BitVec 5) (s t : State), s.cfg.eventPolicy = .firstOnly → exec (.iter raw) s = .next t →
    match triggered raw s with
    | [] => t.game = s.game ∧ t.history = s.history
    | b :: _ => ∃ u, exec (eventOp b s) s = .next u ∧ t.game = u.game ∧ t.history = u.history

/-! ## The whole machine -/

/-- The invariants R27(d), R31, R32, R33, R34, R38 and R40 are kept by every step, commands, reserved words and
resets alike, under every configuration. -/
def Obligations.StepKeepsTheInvariant : Prop :=
  ∀ s t : State, StateInvariant s → step s = .next t → StateInvariant t

/-- The reset state meets the invariant. -/
def Obligations.ResetMeetsTheInvariant : Prop := StateInvariant State.reset

/-- R230, R245: with the hardware's reading of the places R238 names, every step of every state answers a next
state, and it leaves the configuration as it is, so the machine goes on for ever ("the appliance must never
halt"). -/
def Obligations.TheApplianceNeverHalts : Prop :=
  ∀ s : State, NeverRefuses s.cfg → ∃ t, step s = .next t ∧ t.cfg = s.cfg

/-- R238: the model stops at the four places it names and nowhere else, each under its condition: an overflow only
where the point's own register is full, in ITER in the state in which the point's button is handled. -/
def Obligations.RefusalsAreTheFourOfTheRule : Prop :=
  ∀ (s : State) (r : Refusal), step s = .refused r →
    ∃ (w : Word) (rest : List HostInput), s.input = .command w :: rest ∧
      ((∃ why, decode w = .reserved why ∧ r = .reservedEncoding why ∧ s.cfg.reservedReading = .refuse) ∨
       (∃ u pattern, decode w = .op (.rndCustom u pattern (digitCount s.cfg u)) ∧ s.cfg.customBound = .le ∧
         s.cfg.boundaryReading = .refuse ∧ r = .customBoundary u) ∨
       (s.cfg.overflowReading = .refuse ∧
         ((∃ p, decode w = .op (.scPoint p) ∧ pointOverflow s.cfg p s.game r) ∨
          (∃ raw a b p done left, decode w = .op (.iter raw) ∧
            runOps (sampleOps raw) { s with input := rest } = .next a ∧ applied raw s = done ++ pointButton p :: left ∧
            runEvents done a = .next b ∧ pointOverflow s.cfg p b.game r))))

/-- The spec's inference R46, its `w` entries: whatever an operation is not listed as writing, it leaves; the
configuration and the host's later inputs are written by none. -/
def Obligations.OnlyListedStateIsWritten : Prop :=
  ∀ (i : Instr) (s t : State), exec i s = .next t →
    t.cfg = s.cfg ∧ t.input = s.input ∧ ∀ c, writes i c = false → agreeOn s t c

/-- The spec's inference R46, its `r` entries: what an operation answers, emits and writes, and whether it stops,
depends on the items it is listed as reading and on the build, and on nothing else. -/
def Obligations.OnlyListedStateIsRead : Prop :=
  ∀ (i : Instr) (s t : State), sameBuild s t → (∀ c, reads i c = true → agreeOn s t c) →
    alike (fun u v => u.resp = v.resp ∧ u.events = v.events ∧ ∀ c, agreeOn s t c → agreeOn u v c)
      (exec i s) (exec i t)
end

