-- ==== Sys2Proof/Laws/State.lean ====
section
/-!
SUPPORT. The small lemmas of the state: one per family accessor and per named update, so that no later proof unfolds
a record update.
-/

namespace Sys2Proof.Machine

/-! ## Families -/

section Families

variable {α : Type}

@[simp] theorem ofPlayer_setPlayer_same (f : PerPlayer α) (p : Player) (x : α) :
    ofPlayer (setPlayer f p x) p = x := by cases p <;> rfl

theorem ofPlayer_setPlayer_ne (f : PerPlayer α) {p q : Player} (x : α) (h : q ≠ p) :
    ofPlayer (setPlayer f p x) q = ofPlayer f q := by cases p <;> cases q <;> first | rfl | exact absurd rfl h

theorem perPlayer_ext {f g : PerPlayer α} (h : ∀ p, ofPlayer f p = ofPlayer g p) : f = g := by
  cases f
  cases g
  simpa using ⟨h .p1, h .p2⟩

@[simp] theorem ofButton_setButton_same (f : PerButton α) (b : Button) (x : α) :
    ofButton (setButton f b x) b = x := by cases b <;> rfl

theorem ofButton_setButton_ne (f : PerButton α) {b c : Button} (x : α) (h : c ≠ b) :
    ofButton (setButton f b x) c = ofButton f c := by cases b <;> cases c <;> first | rfl | exact absurd rfl h

theorem perButton_ext {f g : PerButton α} (h : ∀ b, ofButton f b = ofButton g b) : f = g := by
  cases f
  cases g
  simpa using ⟨h .mode, h .fs, h .undo, h .p1, h .p2⟩

@[simp] theorem ofDisplay_setDisplay_same (f : PerDisplay α) (u : Display) (x : α) :
    ofDisplay (setDisplay f u x) u = x := by cases u <;> rfl

theorem ofDisplay_setDisplay_ne (f : PerDisplay α) {u v : Display} (x : α) (h : v ≠ u) :
    ofDisplay (setDisplay f u x) v = ofDisplay f v := by cases u <;> cases v <;> first | rfl | exact absurd rfl h

@[simp] theorem setDisplay_setDisplay (f : PerDisplay α) (u : Display) (x y : α) :
    setDisplay (setDisplay f u x) u y = setDisplay f u y := by cases u <;> rfl

@[simp] theorem setDisplay_ofDisplay (f : PerDisplay α) (u : Display) : setDisplay f u (ofDisplay f u) = f := by
  cases u <;> rfl

theorem perDisplay_ext {f g : PerDisplay α} (h : ∀ u, ofDisplay f u = ofDisplay g u) : f = g := by
  cases f
  cases g
  simpa using ⟨h .s1, h .s2, h .g1, h .g2⟩

end Families

/-! ## Results -/

@[simp] theorem andThen_next (s : State) (k : State → Result) : andThen (.next s) k = k s := rfl

@[simp] theorem andThen_refused (r : Refusal) (k : State → Result) : andThen (.refused r) k = .refused r := rfl

theorem andThen_eq_next {r : Result} {k : State → Result} {t : State} (h : andThen r k = .next t) :
    ∃ s, r = .next s ∧ k s = .next t := by
  cases r with
  | next s => exact ⟨s, rfl, h⟩
  | fault f => cases f
  | refused x => cases h

theorem andThen_eq_refused {r : Result} {k : State → Result} {x : Refusal} (h : andThen r k = .refused x) :
    r = .refused x ∨ ∃ s, r = .next s ∧ k s = .refused x := by
  cases r with
  | next s => exact .inr ⟨s, rfl, h⟩
  | fault f => cases f
  | refused y => exact .inl h

theorem andThen_assoc (r : Result) (k l : State → Result) :
    andThen (andThen r k) l = andThen r fun s => andThen (k s) l := by cases r <;> rfl

theorem respond_eq (v : Byte) (s : State) : respond v s = .next { s with resp := some v } := rfl

/-! ## The beginning of an operation -/

@[simp] theorem begin_cfg (s : State) : (begin s).cfg = s.cfg := rfl
@[simp] theorem begin_deb (s : State) : (begin s).deb = s.deb := rfl
@[simp] theorem begin_sel (s : State) : (begin s).sel = s.sel := rfl
@[simp] theorem begin_seg (s : State) : (begin s).seg = s.seg := rfl
@[simp] theorem begin_ind (s : State) : (begin s).ind = s.ind := rfl
@[simp] theorem begin_game (s : State) : (begin s).game = s.game := rfl
@[simp] theorem begin_history (s : State) : (begin s).history = s.history := rfl
@[simp] theorem begin_resp (s : State) : (begin s).resp = none := rfl
@[simp] theorem begin_events (s : State) : (begin s).events = [] := rfl
@[simp] theorem begin_input (s : State) : (begin s).input = s.input := rfl

/-! ## An output event -/

@[simp] theorem drive_cfg (e : Event) (s : State) : (drive e s).cfg = s.cfg := by cases e <;> rfl
@[simp] theorem drive_deb (e : Event) (s : State) : (drive e s).deb = s.deb := by cases e <;> rfl
@[simp] theorem drive_game (e : Event) (s : State) : (drive e s).game = s.game := by cases e <;> rfl
@[simp] theorem drive_history (e : Event) (s : State) : (drive e s).history = s.history := by cases e <;> rfl
@[simp] theorem drive_resp (e : Event) (s : State) : (drive e s).resp = s.resp := by cases e <;> rfl
@[simp] theorem drive_events (e : Event) (s : State) : (drive e s).events = s.events := by cases e <;> rfl
@[simp] theorem drive_input (e : Event) (s : State) : (drive e s).input = s.input := by cases e <;> rfl

@[simp] theorem emit_cfg (e : Event) (s : State) : (emit e s).cfg = s.cfg := drive_cfg e s
@[simp] theorem emit_deb (e : Event) (s : State) : (emit e s).deb = s.deb := drive_deb e s
@[simp] theorem emit_game (e : Event) (s : State) : (emit e s).game = s.game := drive_game e s
@[simp] theorem emit_history (e : Event) (s : State) : (emit e s).history = s.history := drive_history e s
@[simp] theorem emit_resp (e : Event) (s : State) : (emit e s).resp = s.resp := drive_resp e s
@[simp] theorem emit_input (e : Event) (s : State) : (emit e s).input = s.input := drive_input e s
@[simp] theorem emit_events (e : Event) (s : State) : (emit e s).events = s.events ++ [e] := rfl
@[simp] theorem emit_sel (e : Event) (s : State) : (emit e s).sel = (drive e s).sel := rfl
@[simp] theorem emit_seg (e : Event) (s : State) : (emit e s).seg = (drive e s).seg := rfl
@[simp] theorem emit_ind (e : Event) (s : State) : (emit e s).ind = (drive e s).ind := rfl

@[simp] theorem drive_sel_sel (u : Display) (i : Nat) (v : Bool) (s : State) :
    (drive (.sel u i v) s).sel = setDisplay s.sel u ((ofDisplay s.sel u).set i v) := rfl
@[simp] theorem drive_sel_seg (u : Display) (i : Nat) (v : Bool) (s : State) :
    (drive (.sel u i v) s).seg = s.seg := rfl
@[simp] theorem drive_sel_ind (u : Display) (i : Nat) (v : Bool) (s : State) :
    (drive (.sel u i v) s).ind = s.ind := rfl
@[simp] theorem drive_seg_sel (u : Display) (p : Byte) (s : State) : (drive (.seg u p) s).sel = s.sel := rfl
@[simp] theorem drive_seg_seg (u : Display) (p : Byte) (s : State) :
    (drive (.seg u p) s).seg = setDisplay s.seg u p := rfl
@[simp] theorem drive_seg_ind (u : Display) (p : Byte) (s : State) : (drive (.seg u p) s).ind = s.ind := rfl
@[simp] theorem drive_hold (u : Display) (s : State) : drive (.hold u) s = s := rfl
@[simp] theorem drive_ind_sel (v w : Bool) (s : State) : (drive (.ind v w) s).sel = s.sel := rfl
@[simp] theorem drive_ind_seg (v w : Bool) (s : State) : (drive (.ind v w) s).seg = s.seg := rfl
@[simp] theorem drive_ind_ind (v w : Bool) (s : State) : (drive (.ind v w) s).ind = ⟨v, w⟩ := rfl

/-- An event leaves every display but the one it names. -/
theorem drive_other_display (e : Event) (s : State) (v : Display)
    (h : ∀ u i x, e = .sel u i x → v ≠ u) (h' : ∀ u p, e = .seg u p → v ≠ u) :
    ofDisplay (drive e s).sel v = ofDisplay s.sel v ∧ ofDisplay (drive e s).seg v = ofDisplay s.seg v := by
  cases e with
  | sel u i x => exact ⟨ofDisplay_setDisplay_ne _ _ (h u i x rfl), rfl⟩
  | seg u p => exact ⟨rfl, ofDisplay_setDisplay_ne _ _ (h' u p rfl)⟩
  | hold u => exact ⟨rfl, rfl⟩
  | ind a b => exact ⟨rfl, rfl⟩

end Sys2Proof.Machine
end

