-- ==== Sys2Proof/Laws/Debounce.lean ====
section
/-!
SUPPORT. What a sample does to one window, and to the state.
-/

namespace Sys2Proof.Machine

/-- R111 without the exclusive or: equal to the active-low bit is released. -/
theorem mappedSample_eq (c : Config) (b : Button) (raw : Bool) :
    mappedSample c b raw = if raw = ofButton c.activeLow b then .released else .pressed := by
  unfold mappedSample
  cases raw <;> cases ofButton c.activeLow b <;> rfl

/-- The three slots after a sample, the position, and the two ways it can end. -/
theorem sampleWindow_spec (m : Level) (d : Debouncer) :
    let r := sampleWindow m d
    r.1.slot0 = (if d.ctr.val = 0 then m else d.slot0) ∧ r.1.slot1 = (if d.ctr.val = 1 then m else d.slot1) ∧
    r.1.slot2 = (if d.ctr.val = 2 then m else d.slot2) ∧ r.1.ctr.val = (d.ctr.val + 1) % 3 ∧
    (if r.1.slot0 = r.1.slot1 ∧ r.1.slot1 = r.1.slot2 ∧ r.1.slot0 ≠ d.latched then
      r.1.latched = r.1.slot0 ∧ r.2 = edgeTo r.1.slot0
    else r.1.latched = d.latched ∧ r.2 = .none) := by
  obtain ⟨x, y, z, k, l⟩ := d
  fin_cases k <;> cases m <;> cases x <;> cases y <;> cases z <;> cases l <;> decide

/-- R27(b): read oldest first, the ring is a shift register. -/
theorem sampleWindow_shifts (m : Level) (d : Debouncer) :
    windowOldestFirst (sampleWindow m d).1 = ((windowOldestFirst d).2.1, (windowOldestFirst d).2.2, m) := by
  obtain ⟨x, y, z, k, l⟩ := d
  fin_cases k <;> cases m <;> cases x <;> cases y <;> cases z <;> cases l <;> decide

/-- R113: the latched level and the edge, from the two newest slots, the sample and the old level. -/
theorem sampleWindow_latches (m : Level) (d : Debouncer) :
    let a := (windowOldestFirst d).2.1
    let c := (windowOldestFirst d).2.2
    if a = c ∧ c = m ∧ m ≠ d.latched then
      (sampleWindow m d).1.latched = m ∧ (sampleWindow m d).2 = edgeTo m
    else (sampleWindow m d).1.latched = d.latched ∧ (sampleWindow m d).2 = .none := by
  obtain ⟨x, y, z, k, l⟩ := d
  fin_cases k <;> cases m <;> cases x <;> cases y <;> cases z <;> cases l <;> decide

/-- R27(d): after a sample, agreeing slots agree with the latched level. -/
theorem sampleWindow_settled (m : Level) (d : Debouncer) :
    agree (sampleWindow m d).1 = true → (sampleWindow m d).1.latched = (sampleWindow m d).1.slot0 := by
  obtain ⟨x, y, z, k, l⟩ := d
  fin_cases k <;> cases m <;> cases x <;> cases y <;> cases z <;> cases l <;> decide

@[simp] theorem sampleButton_cfg (b : Button) (raw : Bool) (s : State) :
    (sampleButton b raw s).1.cfg = s.cfg := rfl
@[simp] theorem sampleButton_deb (b : Button) (raw : Bool) (s : State) :
    (sampleButton b raw s).1.deb = setButton s.deb b (sampledWindow s b raw).1 := rfl
@[simp] theorem sampleButton_sel (b : Button) (raw : Bool) (s : State) :
    (sampleButton b raw s).1.sel = s.sel := rfl
@[simp] theorem sampleButton_seg (b : Button) (raw : Bool) (s : State) :
    (sampleButton b raw s).1.seg = s.seg := rfl
@[simp] theorem sampleButton_ind (b : Button) (raw : Bool) (s : State) :
    (sampleButton b raw s).1.ind = s.ind := rfl
@[simp] theorem sampleButton_game (b : Button) (raw : Bool) (s : State) :
    (sampleButton b raw s).1.game = s.game := rfl
@[simp] theorem sampleButton_history (b : Button) (raw : Bool) (s : State) :
    (sampleButton b raw s).1.history = s.history := rfl
@[simp] theorem sampleButton_resp (b : Button) (raw : Bool) (s : State) :
    (sampleButton b raw s).1.resp = s.resp := rfl
@[simp] theorem sampleButton_events (b : Button) (raw : Bool) (s : State) :
    (sampleButton b raw s).1.events = s.events := rfl
@[simp] theorem sampleButton_input (b : Button) (raw : Bool) (s : State) :
    (sampleButton b raw s).1.input = s.input := rfl
@[simp] theorem sampleButton_edge (b : Button) (raw : Bool) (s : State) :
    (sampleButton b raw s).2 = (sampledWindow s b raw).2 := rfl

/-- DB.SAMPLE in one equation. -/
theorem execDbSample_eq (b : Button) (raw : Bool) (s : State) :
    execDbSample b raw s = .next { s with
      deb := setButton s.deb b (sampledWindow s b raw).1
      resp := some (edgeResponse (sampledWindow s b raw).2)
      events := [] } := rfl

end Sys2Proof.Machine
end

