-- ==== Sys2Proof/Laws/Decode.lean ====
section
/-!
SUPPORT. The fields of a word as numbers, the fields of an assembled word, and what each format reads from an
operand word of its own.
-/

namespace Sys2Proof

/-! ## Concatenation and slices as arithmetic -/

theorem toNat_append_add {m n : Nat} (x : BitVec m) (y : BitVec n) :
    (x ++ y).toNat = x.toNat * 2 ^ n + y.toNat := by
  rw [BitVec.toNat_append, ← Nat.shiftLeft_add_eq_or_of_lt y.isLt, Nat.shiftLeft_eq]

theorem toNat_slice {m : Nat} (x : BitVec m) (lo n : Nat) :
    (x.extractLsb' lo n).toNat = x.toNat / 2 ^ lo % 2 ^ n := by
  rw [BitVec.extractLsb'_toNat, Nat.shiftRight_eq_div_pow]

theorem assemble_toNat (op unit : BitVec 4) (arg : BitVec 24) :
    (assemble op unit arg).toNat = op.toNat * 2 ^ 28 + unit.toNat * 2 ^ 24 + arg.toNat := by
  simp only [assemble, toNat_append_add]
  omega

theorem opField_toNat (w : Word) : (opField w).toNat = w.toNat / 2 ^ 28 := by
  have := w.isLt
  simp only [opField, toNat_slice]
  omega

theorem unitField_toNat (w : Word) : (unitField w).toNat = w.toNat / 2 ^ 24 % 16 := toNat_slice w 24 4

theorem argField_toNat (w : Word) : (argField w).toNat = w.toNat % 2 ^ 24 := by
  simp only [argField, toNat_slice]
  omega

/-! ## The fields of an assembled word -/

@[simp] theorem opField_assemble (op unit : BitVec 4) (arg : BitVec 24) : opField (assemble op unit arg) = op := by
  have := op.isLt
  have := unit.isLt
  have := arg.isLt
  apply BitVec.eq_of_toNat_eq
  rw [opField_toNat, assemble_toNat]
  omega

@[simp] theorem unitField_assemble (op unit : BitVec 4) (arg : BitVec 24) :
    unitField (assemble op unit arg) = unit := by
  have := op.isLt
  have := unit.isLt
  have := arg.isLt
  apply BitVec.eq_of_toNat_eq
  rw [unitField_toNat, assemble_toNat]
  omega

@[simp] theorem argField_assemble (op unit : BitVec 4) (arg : BitVec 24) :
    argField (assemble op unit arg) = arg := by
  have := op.isLt
  have := unit.isLt
  have := arg.isLt
  apply BitVec.eq_of_toNat_eq
  rw [argField_toNat, assemble_toNat]
  omega

theorem assemble_fields (w : Word) : assemble (opField w) (unitField w) (argField w) = w := by
  have := w.isLt
  apply BitVec.eq_of_toNat_eq
  rw [assemble_toNat, opField_toNat, unitField_toNat, argField_toNat]
  omega

theorem decode_assemble (op unit : BitVec 4) (arg : BitVec 24) :
    decode (assemble op unit arg) = decodeFields op.toNat unit arg := by simp [decode]

/-! ## Units and one-bit operands -/

@[simp] theorem buttonOfUnit_unitOfButton (b : Button) : buttonOfUnit (unitOfButton b) = some b := by cases b <;> rfl

@[simp] theorem displayOfUnit_unitOfDisplay (u : Display) : displayOfUnit (unitOfDisplay u) = some u := by
  cases u <;> rfl

theorem unitOfButton_of_some {unit : BitVec 4} {b : Button} (h : buttonOfUnit unit = some b) :
    unitOfButton b = unit := by
  revert h
  revert b
  revert unit
  decide

theorem unitOfDisplay_of_some {unit : BitVec 4} {u : Display} (h : displayOfUnit unit = some u) :
    unitOfDisplay u = unit := by
  revert h
  revert u
  revert unit
  decide

@[simp] theorem playerOfBit_bitOfPlayer (p : Player) : playerOfBit ((bitOfPlayer p).getLsbD 0) = p := by
  cases p <;> rfl

@[simp] theorem modeOfBit_bitOfMode (m : Mode) : modeOfBit ((bitOfMode m).getLsbD 0) = m := by cases m <;> rfl

/-! ## What a format reads from its own operand word -/

theorem lowField_append {n k : Nat} (h : k + n = 24) (x : BitVec n) (f : BitVec n → Decoded) :
    lowField n ((0#k ++ x).cast h) f = f x := by
  have hx := x.isLt
  have e : ((0#k ++ x).cast h).toNat = x.toNat := by
    rw [BitVec.toNat_cast, toNat_append_add]
    simp
  unfold lowField
  rw [if_pos (by rw [e]; exact hx)]
  congr 1
  apply BitVec.eq_of_toNat_eq
  rw [toNat_slice, e]
  simp [Nat.mod_eq_of_lt hx]

/-- A format of low bits that accepts `arg` has read a value that `arg` is, padded with zeros. -/
theorem lowField_eq_op {n k : Nat} (h : k + n = 24) {arg : BitVec 24} {f : BitVec n → Decoded} {i : Instr}
    (e : lowField n arg f = .op i) : ∃ x : BitVec n, arg = (0#k ++ x).cast h ∧ f x = .op i := by
  unfold lowField at e
  split at e
  case isFalse => cases e
  case isTrue lt =>
    refine ⟨_, ?_, e⟩
    apply BitVec.eq_of_toNat_eq
    rw [BitVec.toNat_cast, toNat_append_add, toNat_slice]
    simp [Nat.mod_eq_of_lt lt]

theorem renderArg_toNat {value : Nat} {dp : Option Nat} (h : value < 65536) (h' : dp.all (· < 16) = true) :
    (renderArg value dp).toNat = (if dp.isSome then 1 else 0) * 2 ^ 23 + dp.getD 0 * 2 ^ 16 + value := by
  simp only [renderArg, toNat_append_add, BitVec.toNat_ofNat]
  cases dp with
  | none => simp; omega
  | some k => simp at h' ⊢; omega

theorem renderOperands_renderArg {value : Nat} {dp : Option Nat} (k : Nat → Option Nat → Instr)
    (h : value < 65536) (h' : dp.all (· < 16) = true) :
    renderOperands (renderArg value dp) k = .op (k value dp) := by
  have e := renderArg_toNat h h'
  have bounds : dp.getD 0 < 16 := by cases dp <;> simp_all
  have mbz : (renderArg value dp).extractLsb' 20 3 = 0#3 := by
    apply BitVec.eq_of_toNat_eq
    rw [toNat_slice, e]
    split <;> simp <;> omega
  have val : ((renderArg value dp).extractLsb' 0 16).toNat = value := by
    rw [toNat_slice, e]
    split <;> simp <;> omega
  have idx : ((renderArg value dp).extractLsb' 16 4).toNat = dp.getD 0 := by
    rw [toNat_slice, e]
    split <;> simp <;> omega
  have en : (renderArg value dp).getLsbD 23 = dp.isSome := by
    rw [BitVec.getLsbD, Nat.testBit_eq_decide_div_mod_eq, e]
    cases dp <;> simp at bounds ⊢ <;> omega
  unfold renderOperands
  rw [if_pos mbz, en, val, idx]
  cases dp with
  | none =>
    have : (renderArg value none).extractLsb' 16 4 = 0#4 := BitVec.eq_of_toNat_eq (by rw [idx]; rfl)
    simp [this]
  | some k => simp

/-- Format R accepts only operand words that are `renderArg` of operands in range. -/
theorem renderOperands_eq_op {arg : BitVec 24} {k : Nat → Option Nat → Instr} {i : Instr}
    (e : renderOperands arg k = .op i) :
    ∃ value dp, value < 65536 ∧ dp.all (· < 16) = true ∧ arg = renderArg value dp ∧ i = k value dp := by
  have lt := arg.isLt
  unfold renderOperands at e
  split at e
  case isFalse => cases e
  case isTrue mbz =>
    have mbz' := congrArg BitVec.toNat mbz
    rw [toNat_slice] at mbz'
    have hv : (arg.extractLsb' 0 16).toNat < 65536 := (arg.extractLsb' 0 16).isLt
    have hi : (arg.extractLsb' 16 4).toNat < 16 := (arg.extractLsb' 16 4).isLt
    have ev := toNat_slice arg 0 16
    have ei := toNat_slice arg 16 4
    split at e
    case isTrue en =>
      rw [BitVec.getLsbD, Nat.testBit_eq_decide_div_mod_eq] at en
      refine ⟨_, _, hv, by simpa using hi, ?_, (Decoded.op.inj e).symm⟩
      apply BitVec.eq_of_toNat_eq
      rw [renderArg_toNat hv (by simpa using hi)]
      simp at en mbz' ev ei ⊢
      omega
    case isFalse en =>
      rw [BitVec.getLsbD, Nat.testBit_eq_decide_div_mod_eq] at en
      split at e
      case isFalse => cases e
      case isTrue zero =>
        have zero' := congrArg BitVec.toNat zero
        refine ⟨_, _, hv, by simp, ?_, (Decoded.op.inj e).symm⟩
        apply BitVec.eq_of_toNat_eq
        rw [renderArg_toNat hv (by simp)]
        simp at en mbz' ev ei zero' ⊢
        omega

theorem customArg_toNat (pattern : Byte) {digit : Nat} (h : digit < 16) :
    (customArg pattern digit).toNat = digit * 2 ^ 8 + pattern.toNat := by
  simp only [customArg, toNat_append_add, BitVec.toNat_ofNat]
  simp
  omega

theorem customOperands_customArg (pattern : Byte) {digit : Nat} (k : Byte → Nat → Instr) (h : digit < 16) :
    customOperands (customArg pattern digit) k = .op (k pattern digit) := by
  have e := customArg_toNat pattern h
  have hp := pattern.isLt
  have mbz : (customArg pattern digit).extractLsb' 12 12 = 0#12 := by
    apply BitVec.eq_of_toNat_eq
    rw [toNat_slice, e]
    simp
    omega
  have pat : (customArg pattern digit).extractLsb' 0 8 = pattern := by
    apply BitVec.eq_of_toNat_eq
    rw [toNat_slice, e]
    omega
  have dig : ((customArg pattern digit).extractLsb' 8 4).toNat = digit := by
    rw [toNat_slice, e]
    omega
  unfold customOperands
  rw [if_pos mbz, pat, dig]

/-- Format C accepts only operand words that are `customArg` of operands in range. -/
theorem customOperands_eq_op {arg : BitVec 24} {k : Byte → Nat → Instr} {i : Instr}
    (e : customOperands arg k = .op i) :
    ∃ pattern digit, digit < 16 ∧ arg = customArg pattern digit ∧ i = k pattern digit := by
  have lt := arg.isLt
  unfold customOperands at e
  split at e
  case isFalse => cases e
  case isTrue mbz =>
    have mbz' := congrArg BitVec.toNat mbz
    rw [toNat_slice] at mbz'
    have hd : (arg.extractLsb' 8 4).toNat < 16 := (arg.extractLsb' 8 4).isLt
    have ep := toNat_slice arg 0 8
    have ed := toNat_slice arg 8 4
    refine ⟨_, _, hd, ?_, (Decoded.op.inj e).symm⟩
    apply BitVec.eq_of_toNat_eq
    rw [customArg_toNat _ hd]
    simp at mbz' ep ed ⊢
    omega

end Sys2Proof
end

