-- ==== Sys2Proof/Laws/PerInstr.lean ====
section
/-!
SUPPORT. Statements made of every instruction, one lemma per constructor.
-/

namespace Sys2Proof.Laws.OpField

open Sys2Proof

/-- R84: the `op` field of the instruction's word is the place of its mnemonic in the opcode map. -/
def Statement (i : Instr) : Prop :=
  (opcodeMap[(opField (encode i)).toNat]?).map OpcodeRow.mnemonic = some i.mnemonic

theorem nop : Statement .nop := by simp [Statement, encode, opcodeMap, Instr.mnemonic]
theorem dbSample (b : Button) (raw : Bool) : Statement (.dbSample b raw) := by
  simp [Statement, encode, opcodeMap, Instr.mnemonic]
theorem dbQuery (b : Button) : Statement (.dbQuery b) := by simp [Statement, encode, opcodeMap, Instr.mnemonic]
theorem segEnc (d : BitVec 4) : Statement (.segEnc d) := by simp [Statement, encode, opcodeMap, Instr.mnemonic]
theorem rndDec (u : Display) (value : Nat) (dp : Option Nat) : Statement (.rndDec u value dp) := by
  simp [Statement, encode, opcodeMap, Instr.mnemonic]
theorem rndHex (u : Display) (value : Nat) (dp : Option Nat) : Statement (.rndHex u value dp) := by
  simp [Statement, encode, opcodeMap, Instr.mnemonic]
theorem rndCustom (u : Display) (pattern : Byte) (digit : Nat) : Statement (.rndCustom u pattern digit) := by
  simp [Statement, encode, opcodeMap, Instr.mnemonic]
theorem scServe : Statement .scServe := by simp [Statement, encode, opcodeMap, Instr.mnemonic]
theorem scPoint (p : Player) : Statement (.scPoint p) := by simp [Statement, encode, opcodeMap, Instr.mnemonic]
theorem scUndo : Statement .scUndo := by simp [Statement, encode, opcodeMap, Instr.mnemonic]
theorem scSetMode (m : Mode) : Statement (.scSetMode m) := by simp [Statement, encode, opcodeMap, Instr.mnemonic]
theorem scSetFs (p : Player) : Statement (.scSetFs p) := by simp [Statement, encode, opcodeMap, Instr.mnemonic]
theorem iter (raw : BitVec 5) : Statement (.iter raw) := by simp [Statement, encode, opcodeMap, Instr.mnemonic]
theorem refresh : Statement .refresh := by simp [Statement, encode, opcodeMap, Instr.mnemonic]

end Sys2Proof.Laws.OpField
end

