-- ==== Sys2Proof/Laws/Renderer.lean ====
section
/-!
SUPPORT. What drawing one digit, and a whole display, does to each field of the state.
-/

namespace Sys2Proof.Machine

/-! ## The value of a command -/

/-- R83: a value the build's width holds is used as it is. -/
theorem commandValue_of_fits {c : Config} (u : Display) {value : Nat}
    (h : ∀ k, renderWidth c = some k → value < 2 ^ k) : commandValue c u value = value := by
  unfold commandValue
  split
  · rfl
  · exact if_pos (h _ ‹_›)

/-- R143: what is rendered is below the width's bound. -/
theorem commandValue_fits (c : Config) (u : Display) (value : Nat) :
    ∀ k, renderWidth c = some k → commandValue c u value < 2 ^ k := by
  intro k h
  simp only [commandValue, h]
  split
  · assumption
  · exact Nat.mod_lt _ (Nat.two_pow_pos k)

/-- The width is `VALUE_W`, or none where a counter is unbounded. -/
theorem renderWidth_eq_some {c : Config} {k : Nat} :
    renderWidth c = some k ↔ c.scoreW ≠ none ∧ c.gamesW ≠ none ∧ c.valueW = k := by
  unfold renderWidth
  cases c.scoreW <;> cases c.gamesW <;> simp

/-! ## One digit -/

section Digit

variable (u : Display) (i : Nat) (pat : Byte) (s : State)

@[simp] theorem driveDigit_cfg : (driveDigit u i pat s).cfg = s.cfg := by simp [driveDigit]
@[simp] theorem driveDigit_deb : (driveDigit u i pat s).deb = s.deb := by simp [driveDigit]
@[simp] theorem driveDigit_ind : (driveDigit u i pat s).ind = s.ind := by simp [driveDigit, emit, drive]
@[simp] theorem driveDigit_game : (driveDigit u i pat s).game = s.game := by simp [driveDigit]
@[simp] theorem driveDigit_history : (driveDigit u i pat s).history = s.history := by simp [driveDigit]
@[simp] theorem driveDigit_resp : (driveDigit u i pat s).resp = s.resp := by simp [driveDigit]
@[simp] theorem driveDigit_input : (driveDigit u i pat s).input = s.input := by simp [driveDigit]

/-- R146: the five events. -/
@[simp] theorem driveDigit_events : (driveDigit u i pat s).events =
    s.events ++ [.sel u i true, .seg u pat, .hold u, .sel u i false, .seg u 0x00#8] := by simp [driveDigit]

/-- R146: the digit is off again. -/
@[simp] theorem driveDigit_sel :
    (driveDigit u i pat s).sel = setDisplay s.sel u ((ofDisplay s.sel u).set i false) := by
  simp [driveDigit, emit, drive]

/-- R146: the segments are clear again. -/
@[simp] theorem driveDigit_seg : (driveDigit u i pat s).seg = setDisplay s.seg u 0x00#8 := by
  simp [driveDigit, emit, drive]

end Digit

/-! ## A whole display -/

section Digits

variable (u : Display) (base : Radix) (dp : Option Nat)

@[simp] theorem renderDigits_cfg (n i v : Nat) (s : State) : (renderDigits u base dp n i v s).cfg = s.cfg := by
  induction n generalizing i v s with
  | zero => rfl
  | succ n ih => simp [renderDigits, ih]

@[simp] theorem renderDigits_deb (n i v : Nat) (s : State) : (renderDigits u base dp n i v s).deb = s.deb := by
  induction n generalizing i v s with
  | zero => rfl
  | succ n ih => simp [renderDigits, ih]

@[simp] theorem renderDigits_ind (n i v : Nat) (s : State) : (renderDigits u base dp n i v s).ind = s.ind := by
  induction n generalizing i v s with
  | zero => rfl
  | succ n ih => simp [renderDigits, ih]

@[simp] theorem renderDigits_game (n i v : Nat) (s : State) : (renderDigits u base dp n i v s).game = s.game := by
  induction n generalizing i v s with
  | zero => rfl
  | succ n ih => simp [renderDigits, ih]

@[simp] theorem renderDigits_history (n i v : Nat) (s : State) :
    (renderDigits u base dp n i v s).history = s.history := by
  induction n generalizing i v s with
  | zero => rfl
  | succ n ih => simp [renderDigits, ih]

@[simp] theorem renderDigits_resp (n i v : Nat) (s : State) : (renderDigits u base dp n i v s).resp = s.resp := by
  induction n generalizing i v s with
  | zero => rfl
  | succ n ih => simp [renderDigits, ih]

@[simp] theorem renderDigits_input (n i v : Nat) (s : State) : (renderDigits u base dp n i v s).input = s.input := by
  induction n generalizing i v s with
  | zero => rfl
  | succ n ih => simp [renderDigits, ih]

/-- Other displays are not written. -/
theorem renderDigits_others {v : Display} (h : v ≠ u) (n i value : Nat) (s : State) :
    ofDisplay (renderDigits u base dp n i value s).sel v = ofDisplay s.sel v ∧
    ofDisplay (renderDigits u base dp n i value s).seg v = ofDisplay s.seg v := by
  induction n generalizing i value s with
  | zero => exact ⟨rfl, rfl⟩
  | succ n ih =>
    have step := ih (i + 1) (remainingValue base value)
      (driveDigit u i (digitPattern s.cfg dp i (chosenGlyph base dp i value)) s)
    simpa [renderDigits, ofDisplay_setDisplay_ne _ _ h] using step

/-- The drawn digits are off, the others as they were. -/
theorem renderDigits_sel (n i value : Nat) (s : State) (k : Nat) :
    (ofDisplay (renderDigits u base dp n i value s).sel u)[k]? =
      if i ≤ k ∧ k < i + n then ((ofDisplay s.sel u)[k]?).map (fun _ => false) else (ofDisplay s.sel u)[k]? := by
  induction n generalizing i value s with
  | zero =>
    have : ¬(i ≤ k ∧ k < i + 0) := by omega
    rw [if_neg this]
    rfl
  | succ n ih =>
    rw [renderDigits, ih]
    by_cases hk : k = i
    · subst hk
      have h1 : ¬(k + 1 ≤ k ∧ k < k + 1 + n) := by omega
      have h2 : k ≤ k ∧ k < k + (n + 1) := by omega
      rw [if_neg h1, if_pos h2]
      by_cases hl : k < (ofDisplay s.sel u).length <;> simp [hl]
    · have h : (i + 1 ≤ k ∧ k < i + 1 + n) ↔ (i ≤ k ∧ k < i + (n + 1)) := by omega
      simp only [h, driveDigit_sel, ofDisplay_setDisplay_same]
      rw [List.getElem?_set_ne (Ne.symm hk)]

/-- The number of select outputs never changes. -/
theorem renderDigits_sel_length (n i value : Nat) (s : State) :
    (ofDisplay (renderDigits u base dp n i value s).sel u).length = (ofDisplay s.sel u).length := by
  induction n generalizing i value s with
  | zero => rfl
  | succ n ih => rw [renderDigits, ih]; simp

/-- The segments are clear once a digit is drawn. -/
theorem renderDigits_seg (n i value : Nat) (s : State) :
    ofDisplay (renderDigits u base dp n i value s).seg u = if n = 0 then ofDisplay s.seg u else 0x00#8 := by
  induction n generalizing i value s with
  | zero => rfl
  | succ n ih => rw [renderDigits, ih]; simp

/-- On a dark display the outputs are dark again. -/
theorem renderDigits_dark (n i value : Nat) (s : State)
    (h : ofDisplay s.sel u = List.replicate (ofDisplay s.sel u).length false) (h' : ofDisplay s.seg u = 0x00#8) :
    (renderDigits u base dp n i value s).sel = s.sel ∧ (renderDigits u base dp n i value s).seg = s.seg := by
  constructor
  · apply perDisplay_ext
    intro v
    by_cases hv : v = u
    · subst hv
      apply List.ext_getElem?
      intro k
      rw [renderDigits_sel]
      split
      · rw [h]
        simp [List.getElem?_replicate]
      · rfl
    · exact (renderDigits_others u base dp hv n i value s).1
  · apply perDisplay_ext
    intro v
    by_cases hv : v = u
    · subst hv
      rw [renderDigits_seg, h']
      simp
    · exact (renderDigits_others u base dp hv n i value s).2

/-- R148: the events, digit by digit; R144: the value left for digit i + k is the value divided k times. -/
theorem renderDigits_events (n i value : Nat) (s : State) :
    (renderDigits u base dp n i value s).events = s.events ++ (List.range n).flatMap fun k =>
      [.sel u (i + k) true,
       .seg u (digitPattern s.cfg dp (i + k) (chosenGlyph base dp (i + k) (value / radixValue base ^ k))),
       .hold u, .sel u (i + k) false, .seg u 0x00#8] := by
  induction n generalizing i value s with
  | zero => simp [renderDigits]
  | succ n ih =>
    have rem : remainingValue base value = value / radixValue base := by
      unfold remainingValue
      split
      · rfl
      · simp_all
    rw [renderDigits, ih, List.range_succ_eq_map, List.flatMap_cons, List.flatMap_map]
    simp only [driveDigit_events, driveDigit_cfg, rem, List.append_assoc, Nat.add_zero, Nat.pow_zero, Nat.div_one,
      Nat.div_div_eq_div_mul, ← Nat.pow_succ', Nat.succ_eq_add_one, Nat.add_right_comm i 1, Nat.add_assoc]

end Digits

end Sys2Proof.Machine
end

