-- ==== Sys2Proof/Laws/Scoring.lean ====
section
/-!
SUPPORT. What an increment, a point, an undo and a setter can do, said once.
-/

namespace Sys2Proof.Machine

/-! ## The increment -/

/-- With room the increment is exact. -/
theorem incremented_of_fits {x : Counter} {w : Option Nat} (reading : OpenReading) {n : Nat}
    (h : ∀ k, w = some k → n + 1 < 2 ^ k) :
    incremented x w reading n = some (n + 1) := by
  cases w with
  | none => rfl
  | some k => simp [incremented, h k rfl]

/-- R184: without room and refusing, there is no value. -/
theorem incremented_refuse {x : Counter} {k n : Nat} (h : 2 ^ k ≤ n + 1) :
    incremented x (some k) .refuse n = none := by
  simp [incremented, Nat.not_lt.2 h]

/-- The increment is refused only by a full register under the reading `refuse`. -/
theorem incremented_eq_none {x : Counter} {w : Option Nat} {reading : OpenReading} {n : Nat}
    (h : incremented x w reading n = none) :
    reading = .refuse ∧ ∃ k, w = some k ∧ 2 ^ k ≤ n + 1 := by
  cases w with
  | none => cases h
  | some k =>
    simp only [incremented] at h
    split at h
    · cases h
    · cases reading with
      | refuse => exact ⟨rfl, k, rfl, by omega⟩
      | hardware => cases h

/-- Refusing, an increment that gives a value is exact and has room. -/
theorem incremented_refuse_some {x : Counter} {w : Option Nat} {n m : Nat}
    (h : incremented x w .refuse n = some m) : m = n + 1 ∧ ∀ k, w = some k → n + 1 < 2 ^ k := by
  cases w with
  | none => cases h; exact ⟨rfl, nofun⟩
  | some k =>
    simp only [incremented] at h
    split at h
    · cases h
      rename_i lt
      exact ⟨rfl, fun j hj => by cases hj; exact lt⟩
    · cases h

/-- What an increment gives is a value of the register. -/
theorem incremented_fits {x : Counter} {w : Option Nat} {reading : OpenReading} {n m : Nat}
    (h : incremented x w reading n = some m) :
    ∀ k, w = some k → m < 2 ^ k := by
  intro k hk
  subst hk
  simp only [incremented] at h
  split at h
  · cases h
    assumption
  · cases reading with
    | refuse => cases h
    | hardware =>
      cases h
      exact Nat.mod_lt _ (Nat.two_pow_pos k)

/-! ## A point -/

/-- What a settled point is: no winner and nothing changed, or a winner whose games were incremented and both scores
0. -/
theorem settled_eq_ok {c : Config} {g h : GameState} (e : settled c g = .ok h) :
    (winner g = none ∧ h = g) ∨
    ∃ w n, winner g = some w ∧ incremented (.games w) c.gamesW c.overflowReading (ofPlayer g.games w) = some n ∧
      h = { g with games := setPlayer g.games w n, score := ⟨0, 0⟩ } := by
  unfold settled at e
  split at e
  · exact .inl ⟨‹_›, (Except.ok.inj e).symm⟩
  · split at e
    · cases e
    · exact .inr ⟨_, _, ‹_›, ‹_›, (Except.ok.inj e).symm⟩

/-- What an awarded point is: the score incremented, then settled. -/
theorem pointAwarded_eq_ok {c : Config} {p : Player} {g h : GameState} (e : pointAwarded c p g = .ok h) :
    ∃ n, incremented (.score p) c.scoreW c.overflowReading (ofPlayer g.score p) = some n ∧
      settled c { g with score := setPlayer g.score p n } = .ok h := by
  unfold pointAwarded at e
  split at e
  · cases e
  · exact ⟨_, ‹_›, e⟩

/-- A point is refused only under the reading `refuse`, and then by the scorer's full register, or, the score being one
more, by the full games register of the winner that makes. -/
theorem pointAwarded_eq_error {c : Config} {p : Player} {g : GameState} {r : Refusal}
    (e : pointAwarded c p g = .error r) : c.overflowReading = .refuse ∧
      ((∃ k, c.scoreW = some k ∧ 2 ^ k ≤ ofPlayer g.score p + 1 ∧ r = .scoreOverflow p) ∨
        (∀ k, c.scoreW = some k → ofPlayer g.score p + 1 < 2 ^ k) ∧
        ∃ w k, winner { g with score := setPlayer g.score p (ofPlayer g.score p + 1) } = some w ∧
          c.gamesW = some k ∧ 2 ^ k ≤ ofPlayer g.games w + 1 ∧ r = .gamesOverflow w) := by
  unfold pointAwarded at e
  split at e
  case h_1 hn =>
    obtain ⟨h, k, hk, full⟩ := incremented_eq_none hn
    cases e
    exact ⟨h, .inl ⟨k, hk, full, rfl⟩⟩
  case h_2 n hn =>
    unfold settled at e
    split at e
    · cases e
    · rename_i w hw
      split at e
      case h_1 hg =>
        obtain ⟨h, k, hk, full⟩ := incremented_eq_none hg
        rw [h] at hn
        obtain ⟨rfl, room⟩ := incremented_refuse_some hn
        cases e
        exact ⟨h, .inr ⟨room, w, k, hw, hk, full, rfl⟩⟩
      case h_2 => cases e

/-- A point keeps the mode and the first server. -/
theorem pointAwarded_keeps {c : Config} {p : Player} {g h : GameState} (e : pointAwarded c p g = .ok h) :
    h.mode = g.mode ∧ h.firstServe = g.firstServe := by
  obtain ⟨n, _, e⟩ := pointAwarded_eq_ok e
  obtain ⟨_, rfl⟩ | ⟨w, m, _, _, rfl⟩ := settled_eq_ok e <;> exact ⟨rfl, rfl⟩

/-- The two ends of a point: the state with the snapshot pushed, or a refusal. -/
theorem awardPoint_cases (p : Player) (s : State) :
    (∃ g, pointAwarded s.cfg p s.game = .ok g ∧
      awardPoint p s = .next { s with history := pushed s.history s.game, game := g }) ∨
    ∃ r, pointAwarded s.cfg p s.game = .error r ∧ awardPoint p s = .refused r := by
  unfold awardPoint
  cases h : pointAwarded s.cfg p s.game with
  | ok g => exact .inl ⟨g, rfl, rfl⟩
  | error r => exact .inr ⟨r, rfl, rfl⟩

/-- SC.POINT in one equation, when it goes on. -/
theorem execScPoint_eq_next {p : Player} {s t : State} (h : execScPoint p s = .next t) :
    ∃ g, pointAwarded s.cfg p s.game = .ok g ∧ t = { s with
      history := pushed s.history s.game, game := g, resp := some 0x00#8, events := [] } := by
  obtain ⟨u, hu, ht⟩ := andThen_eq_next h
  obtain ⟨g, hg, e⟩ | ⟨r, _, e⟩ := awardPoint_cases p (begin s)
  · rw [e] at hu
    cases hu
    cases ht
    exact ⟨g, hg, rfl⟩
  · rw [e] at hu
    cases hu

/-! ## An undo -/

@[simp] theorem popped_nil : popped [] = none := rfl

@[simp] theorem popped_append (h : List GameState) (g : GameState) : popped (h ++ [g]) = some (g, h) := by
  simp [popped, historyEmpty]

theorem undoPoint_nil {s : State} (h : s.history = []) : undoPoint s = s := by
  unfold undoPoint
  rw [h, popped_nil]

theorem undoPoint_append {s : State} {older : List GameState} {g : GameState} (h : s.history = older ++ [g]) :
    undoPoint s = { s with game := g, history := older } := by
  unfold undoPoint
  rw [h, popped_append]

/-- An undo changes nothing, or restores the newest snapshot. -/
theorem undoPoint_cases (s : State) :
    (s.history = [] ∧ undoPoint s = s) ∨
    ∃ older g, s.history = older ++ [g] ∧ undoPoint s = { s with game := g, history := older } := by
  obtain h | ⟨older, g, h⟩ := List.eq_nil_or_concat s.history
  · exact .inl ⟨h, undoPoint_nil h⟩
  · rw [List.concat_eq_append] at h
    exact .inr ⟨older, g, h, undoPoint_append h⟩

/-! ## The lock -/

/-- R23: not locked is 0-0. -/
theorem locked_eq_false_iff (g : GameState) : locked g = false ↔ g.score = ⟨0, 0⟩ := by
  obtain ⟨⟨a, b⟩, _, _, _⟩ := g
  simp [locked]

theorem setMode_eq (m : Mode) (s : State) : setMode m s =
    { s with game := if s.game.score = ⟨0, 0⟩ then { s.game with mode := m } else s.game } := by
  unfold setMode
  by_cases h : s.game.score = ⟨0, 0⟩
  · simp [(locked_eq_false_iff _).2 h, h]
  · have : locked s.game = true := by
      rw [← Bool.not_eq_false]
      exact mt (locked_eq_false_iff _).1 h
    simp [this, h]

theorem setFirstServe_eq (p : Player) (s : State) : setFirstServe p s =
    { s with game := if s.game.score = ⟨0, 0⟩ then { s.game with firstServe := p } else s.game } := by
  unfold setFirstServe
  by_cases h : s.game.score = ⟨0, 0⟩
  · simp [(locked_eq_false_iff _).2 h, h]
  · have : locked s.game = true := by
      rw [← Bool.not_eq_false]
      exact mt (locked_eq_false_iff _).1 h
    simp [this, h]

end Sys2Proof.Machine
end

