-- ==== Sys2Proof/Laws/Sequencer.lean ====
section
/-!
SUPPORT. What a refresh and the parts of an iteration leave of each field.
-/

namespace Sys2Proof.Machine

/-! ## A refresh -/

section Refresh

variable (us : List Display) (s : State)

@[simp] theorem showDisplay_cfg (u : Display) : (showDisplay s u).cfg = s.cfg := by simp [showDisplay, renderNumber]
@[simp] theorem showDisplay_deb (u : Display) : (showDisplay s u).deb = s.deb := by simp [showDisplay, renderNumber]
@[simp] theorem showDisplay_ind (u : Display) : (showDisplay s u).ind = s.ind := by simp [showDisplay, renderNumber]
@[simp] theorem showDisplay_game (u : Display) : (showDisplay s u).game = s.game := by
  simp [showDisplay, renderNumber]
@[simp] theorem showDisplay_history (u : Display) : (showDisplay s u).history = s.history := by
  simp [showDisplay, renderNumber]
@[simp] theorem showDisplay_resp (u : Display) : (showDisplay s u).resp = s.resp := by
  simp [showDisplay, renderNumber]
@[simp] theorem showDisplay_input (u : Display) : (showDisplay s u).input = s.input := by
  simp [showDisplay, renderNumber]

@[simp] theorem foldl_showDisplay_cfg : (us.foldl showDisplay s).cfg = s.cfg := by
  induction us generalizing s with
  | nil => rfl
  | cons u us ih => simp [ih]
@[simp] theorem foldl_showDisplay_deb : (us.foldl showDisplay s).deb = s.deb := by
  induction us generalizing s with
  | nil => rfl
  | cons u us ih => simp [ih]
@[simp] theorem foldl_showDisplay_ind : (us.foldl showDisplay s).ind = s.ind := by
  induction us generalizing s with
  | nil => rfl
  | cons u us ih => simp [ih]
@[simp] theorem foldl_showDisplay_game : (us.foldl showDisplay s).game = s.game := by
  induction us generalizing s with
  | nil => rfl
  | cons u us ih => simp [ih]
@[simp] theorem foldl_showDisplay_history : (us.foldl showDisplay s).history = s.history := by
  induction us generalizing s with
  | nil => rfl
  | cons u us ih => simp [ih]
@[simp] theorem foldl_showDisplay_resp : (us.foldl showDisplay s).resp = s.resp := by
  induction us generalizing s with
  | nil => rfl
  | cons u us ih => simp [ih]
@[simp] theorem foldl_showDisplay_input : (us.foldl showDisplay s).input = s.input := by
  induction us generalizing s with
  | nil => rfl
  | cons u us ih => simp [ih]

@[simp] theorem refreshOutputs_cfg : (refreshOutputs s).cfg = s.cfg := by simp [refreshOutputs, showServer]
@[simp] theorem refreshOutputs_deb : (refreshOutputs s).deb = s.deb := by simp [refreshOutputs, showServer]
@[simp] theorem refreshOutputs_game : (refreshOutputs s).game = s.game := by simp [refreshOutputs, showServer]
@[simp] theorem refreshOutputs_history : (refreshOutputs s).history = s.history := by
  simp [refreshOutputs, showServer]
@[simp] theorem refreshOutputs_resp : (refreshOutputs s).resp = s.resp := by simp [refreshOutputs, showServer]
@[simp] theorem refreshOutputs_input : (refreshOutputs s).input = s.input := by simp [refreshOutputs, showServer]

/-- R211: the indicators show the server. -/
@[simp] theorem refreshOutputs_ind :
    (refreshOutputs s).ind = ⟨server s.game == .p1, server s.game == .p2⟩ := by
  simp [refreshOutputs, showServer, emit, drive]

end Refresh

/-! ## The samples of an iteration -/

section Samples

variable (raw : PerButton Bool) (s : State)

@[simp] theorem sampleAll_cfg : (sampleAll raw s).1.cfg = s.cfg := rfl
@[simp] theorem sampleAll_sel : (sampleAll raw s).1.sel = s.sel := rfl
@[simp] theorem sampleAll_seg : (sampleAll raw s).1.seg = s.seg := rfl
@[simp] theorem sampleAll_ind : (sampleAll raw s).1.ind = s.ind := rfl
@[simp] theorem sampleAll_game : (sampleAll raw s).1.game = s.game := rfl
@[simp] theorem sampleAll_history : (sampleAll raw s).1.history = s.history := rfl
@[simp] theorem sampleAll_resp : (sampleAll raw s).1.resp = s.resp := rfl
@[simp] theorem sampleAll_events : (sampleAll raw s).1.events = s.events := rfl
@[simp] theorem sampleAll_input : (sampleAll raw s).1.input = s.input := rfl

/-- R117: each window is sampled as if alone. -/
theorem sampleAll_window (b : Button) :
    ofButton (sampleAll raw s).1.deb b = (sampledWindow s b (ofButton raw b)).1 := by cases b <;> rfl

theorem sampleAll_edge (b : Button) :
    ofButton (sampleAll raw s).2 b = (sampledWindow s b (ofButton raw b)).2 := by cases b <;> rfl

end Samples

/-! ## The events of an iteration -/

/-- What the engine operation of a button leaves alone. -/
theorem handleButton_keeps {b : Button} {s t : State} (h : handleButton b s = .next t) :
    t = { s with game := t.game, history := t.history } := by
  cases b with
  | mode => cases h; rw [setMode_eq]
  | fs => cases h; rw [setFirstServe_eq]
  | undo =>
    cases h
    obtain ⟨_, e⟩ | ⟨older, g, _, e⟩ := undoPoint_cases s <;> rw [e]
  | p1 =>
    obtain ⟨g, _, e⟩ | ⟨r, _, e⟩ := awardPoint_cases .p1 s
    · rw [handleButton, e] at h
      cases h
      rfl
    · rw [handleButton, e] at h
      cases h
  | p2 =>
    obtain ⟨g, _, e⟩ | ⟨r, _, e⟩ := awardPoint_cases .p2 s
    · rw [handleButton, e] at h
      cases h
      rfl
    · rw [handleButton, e] at h
      cases h

/-- The events of an iteration write the Game State and the history only. -/
theorem handleAll_keeps {bs : List Button} {s t : State} (h : handleAll bs s = .next t) :
    t = { s with game := t.game, history := t.history } := by
  induction bs generalizing s with
  | nil => cases h; rfl
  | cons b bs ih =>
    obtain ⟨u, hu, ht⟩ := andThen_eq_next h
    have e := ih ht
    rw [handleButton_keeps hu] at e
    exact e

/-- A run of events is refused by one of them, in the state the ones before it leave. -/
theorem handleAll_eq_refused {bs : List Button} {s : State} {r : Refusal} (h : handleAll bs s = .refused r) :
    ∃ done b left t, bs = done ++ b :: left ∧ handleAll done s = .next t ∧ handleButton b t = .refused r := by
  induction bs generalizing s with
  | nil => cases h
  | cons b bs ih =>
    obtain e | ⟨u, hu, e⟩ := andThen_eq_refused h
    · exact ⟨[], b, bs, s, rfl, rfl, e⟩
    · obtain ⟨done, c, left, t, rfl, ht, hc⟩ := ih e
      exact ⟨b :: done, c, left, t, rfl, by rw [handleAll, hu, andThen_next, ht], hc⟩

/-- ITER in one inversion: the samples, the events, the refresh. -/
theorem execIter_eq_next {raw : BitVec 5} {s t : State} (h : execIter raw s = .next t) :
    ∃ u, handleAll (handledButtons s.cfg.eventPolicy (triggers s.cfg (sampleAll (rawSamples raw) (begin s)).2))
        (sampleAll (rawSamples raw) (begin s)).1 = .next u ∧
      t = { refreshOutputs u with resp := some (iterResponse
        (handledButtons s.cfg.eventPolicy (triggers s.cfg (sampleAll (rawSamples raw) (begin s)).2)).getLast?
        (triggers s.cfg (sampleAll (rawSamples raw) (begin s)).2)) } := by
  obtain ⟨u, hu, ht⟩ := andThen_eq_next h
  cases ht
  exact ⟨u, hu, rfl⟩

end Sys2Proof.Machine
end

