-- ==== Sys2Proof/Tests/Slice0.lean ====
section
/-!
SUPPORT. The model's own tests. Words are written from the formats of R82, results from `95_test_vectors.md` (its
section is named at each test). After them the witnesses: for every statement with hypotheses a state and operands
that meet them all.
-/

namespace Sys2Proof.Tests

open Sys2Proof Sys2Proof.Machine Sys2Proof.Claims

/-- The next state, if there is one. -/
def next? : Result → Option State
  | .next s => some s
  | _ => none

/-- The response of an operation. -/
def answer (r : Result) : Option Byte := (next? r).bind State.resp

/-- The Game State an operation leaves. -/
def gameAfter (r : Result) : Option GameState := (next? r).map State.game

/-- The refusal, if there is one. -/
def refusal? : Result → Option Refusal
  | .refused r => some r
  | _ => none

/-- The reset state with another Game State. -/
def withGame (g : GameState) : State := { State.reset with game := g }

/-- The reset state with another build. -/
def withConfig (c : Config) : State := State.resetWith c

/-- A Game State with no game won and p1 serving first. -/
def zeroGames (a b : Nat) (m : Mode) : GameState := ⟨⟨a, b⟩, ⟨0, 0⟩, .p1, m⟩

/-- The host's next word. -/
def withWord (w : Word) (s : State) : State := { s with input := [.command w] }

/-! ## Well-formedness: an ill-formed term for each check -/

theorem test_wf_value_too_large : (Instr.rndDec .s1 65536 none).wellFormed = false := by decide
theorem test_wf_value_too_large_hex : (Instr.rndHex .s1 65536 none).wellFormed = false := by decide
theorem test_wf_point_too_large : (Instr.rndDec .s1 0 (some 16)).wellFormed = false := by decide
theorem test_wf_point_too_large_hex : (Instr.rndHex .s1 0 (some 16)).wellFormed = false := by decide
theorem test_wf_digit_too_large : (Instr.rndCustom .s1 0x00#8 16).wellFormed = false := by decide
theorem test_wf_largest : (Instr.rndDec .g2 65535 (some 15)).wellFormed = true ∧
    (Instr.rndHex .g2 65535 (some 15)).wellFormed = true ∧
    (Instr.rndCustom .g2 0xFF#8 15).wellFormed = true := by decide

/-! ## Decoding: fields side by side as R82's table places them (op, unit, arg) -/

theorem test_decode_nop : decode (0x0#4 ++ 0#4 ++ 0#24) = .op .nop := by decide
theorem test_decode_sample : decode (0x1#4 ++ 3#4 ++ 0#23 ++ 1#1) = .op (.dbSample .p1 true) := by decide
theorem test_decode_query : decode (0x2#4 ++ 4#4 ++ 0#24) = .op (.dbQuery .p2) := by decide
theorem test_decode_encoder : decode (0x3#4 ++ 0#4 ++ 0#20 ++ 0b1010#4) = .op (.segEnc 10#4) := by decide
/-- R91: `0x418104D2`. -/
theorem test_decode_dec : decode (0x4#4 ++ 1#4 ++ 1#1 ++ 0#3 ++ 1#4 ++ 1234#16) =
    .op (.rndDec .s2 1234 (some 1)) := by decide
theorem test_decode_hex : decode (0x5#4 ++ 0#4 ++ 0#1 ++ 0#3 ++ 0#4 ++ 0xBEEF#16) =
    .op (.rndHex .s1 0xBEEF none) := by decide
/-- Section 2.3: `0x60000140`. -/
theorem test_decode_custom : decode (0x6#4 ++ 0#4 ++ 0#12 ++ 1#4 ++ 0x40#8) = .op (.rndCustom .s1 0x40#8 1) := by
  decide
theorem test_decode_serve : decode (0x7#4 ++ 0#4 ++ 0#24) = .op .scServe := by decide
theorem test_decode_point : decode (0x8#4 ++ 0#4 ++ 0#23 ++ 1#1) = .op (.scPoint .p2) := by decide
theorem test_decode_undo : decode (0x9#4 ++ 0#4 ++ 0#24) = .op .scUndo := by decide
theorem test_decode_set_mode : decode (0xA#4 ++ 0#4 ++ 0#23 ++ 1#1) = .op (.scSetMode .to21) := by decide
theorem test_decode_set_first_serve : decode (0xB#4 ++ 0#4 ++ 0#23 ++ 1#1) = .op (.scSetFs .p2) := by decide
theorem test_decode_iter : decode (0xC#4 ++ 0#4 ++ 0#19 ++ 0b01000#5) = .op (.iter 0b01000#5) := by decide
theorem test_decode_refresh : decode (0xD#4 ++ 0#4 ++ 0#24) = .op .refresh := by decide

/-- Section 2.6: the reserved words. -/
theorem test_decode_reserved :
    decode 0xF1234567#32 = .reserved .unassignedOp ∧ decode 0x15000000#32 = .reserved .unitOutOfRange ∧
    decode 0x44000000#32 = .reserved .unitOutOfRange ∧ decode 0x70000001#32 = .reserved .mustBeZero ∧
    decode 0x40010000#32 = .reserved .pointIndexWithoutEnable ∧ decode 0x00000001#32 = .reserved .mustBeZero := by
  decide

/-- Every row's `match` word of R84 decodes to its row. -/
theorem test_rows_decode :
    ∀ r ∈ opcodeMap, (decodeTableWord 32 r.pattern.toNat).map Instr.mnemonic = some r.mnemonic := by decide

/-- The mandated entry points run the word as the first instruction after reset: `SEG.ENC 10` answers 0x77. -/
theorem test_first_instruction : answer (step (State.reset.withFetchWord 32 0x3000000A)) = some 0x77#8 := by decide

/-- U4: a reserved word is executed as NOP. -/
theorem test_reserved_runs : answer (step (withWord 0x70000001#32 State.reset)) = some 0x00#8 := by decide

/-! ## One step each -/

/-- Section 2.1 A, row 6: the third consecutive pressed sample. -/
theorem test_sample_presses :
    let d : Debouncer := ⟨.pressed, .pressed, .released, 2, .released⟩
    let r := exec (.dbSample .p1 true) { State.reset with deb := setButton State.reset.deb .p1 d }
    answer r = some 0x01#8 ∧
      (next? r).map (fun s => s.deb.p1) = some ⟨.pressed, .pressed, .pressed, 0, .pressed⟩ := by decide

/-- Section 2.1 C: with the pull-up convention a raw 1 is a release, the sixth sample reports it. -/
theorem test_sample_active_low :
    let c := { Config.default with activeLow := ⟨true, true, true, true, true⟩ }
    let d : Debouncer := ⟨.released, .released, .pressed, 2, .pressed⟩
    let s := withConfig c
    answer (exec (.dbSample .undo true) { s with deb := setButton s.deb .undo d }) = some 0x02#8 := by decide

/-- Section 2.1 E. -/
theorem test_query :
    let d : Debouncer := ⟨.pressed, .pressed, .pressed, 0, .pressed⟩
    answer (exec (.dbQuery .p1) { State.reset with deb := setButton State.reset.deb .p1 d }) = some 0x01#8 := by
  decide

/-- Section 2.2. -/
theorem test_encoder : answer (exec (.segEnc 15#4) State.reset) = some 0x71#8 := by decide

/-- Section 2.3, second full trace: `RND.DEC 0, 5, dp = 1`. -/
theorem test_dec_trace : (next? (exec (.rndDec .s1 5 (some 1)) State.reset)).map State.events =
    some [.sel .s1 0 true, .seg .s1 0x6D#8, .hold .s1, .sel .s1 0 false, .seg .s1 0x00#8,
      .sel .s1 1 true, .seg .s1 0xBF#8, .hold .s1, .sel .s1 1 false, .seg .s1 0x00#8] := by decide

/-- Section 2.3: 105 on two digits shows `05`. -/
theorem test_dec_truncates : (next? (exec (.rndDec .s1 105 none) State.reset)).map State.events =
    some (digitEvents .s1 0 0x6D#8 ++ digitEvents .s1 1 0x3F#8) := by decide

/-- Log 18: on a build with `VALUE_W = 8`, 42 is shown as it is and 300 completes. -/
theorem test_dec_narrow_build :
    let s := withConfig { Config.default with valueW := 8 }
    s.cfg.Wf ∧ (next? (exec (.rndDec .s1 42 none) s)).map State.events =
      some (digitEvents .s1 0 0x5B#8 ++ digitEvents .s1 1 0x66#8) ∧
    ∃ t, exec (.rndDec .s1 300 none) s = .next t := ⟨by decide, by decide, _, rfl⟩

/-- Section 2.3, fourth full trace: `RND.HEX 1, 0x1F`. -/
theorem test_hex_trace : (next? (exec (.rndHex .s2 0x1F none) State.reset)).map State.events =
    some [.sel .s2 0 true, .seg .s2 0x71#8, .hold .s2, .sel .s2 0 false, .seg .s2 0x00#8,
      .sel .s2 1 true, .seg .s2 0x06#8, .hold .s2, .sel .s2 1 false, .seg .s2 0x00#8] := by decide

/-- Section 2.3: the minus sign on the left digit. -/
theorem test_custom_trace : (next? (exec (.rndCustom .s1 0x40#8 1) State.reset)).map State.events =
    some [.sel .s1 1 true, .seg .s1 0x40#8, .hold .s1, .sel .s1 1 false, .seg .s1 0x00#8] := by decide

/-- Section 2.3: digit 2 of 2, the hardware decision; digit 3, nothing. -/
theorem test_custom_boundary :
    (next? (exec (.rndCustom .s1 0x40#8 2) State.reset)).map State.events =
      some [.seg .s1 0x40#8, .hold .s1, .seg .s1 0x00#8] ∧
    (next? (exec (.rndCustom .s1 0x40#8 3) State.reset)).map State.events = some [] := by decide

/-- S5: (10,9) p2; (10,10) p1. -/
theorem test_serve_to11 : answer (exec .scServe (withGame (zeroGames 10 9 .to11))) = some 0x01#8 ∧
    answer (exec .scServe (withGame (zeroGames 10 10 .to11))) = some 0x00#8 := by decide

/-- Section 2.4: in `to_21`, (19,20) p2, (21,20) p2. -/
theorem test_serve_to21 : answer (exec .scServe (withGame (zeroGames 19 20 .to21))) = some 0x01#8 ∧
    answer (exec .scServe (withGame (zeroGames 21 20 .to21))) = some 0x01#8 := by decide

/-- S2, `to_11`: a win without deuce, no win at (11,10), a win by two for p2. -/
theorem test_point_to11 :
    gameAfter (exec (.scPoint .p1) (withGame (zeroGames 10 9 .to11))) = some ⟨⟨0, 0⟩, ⟨1, 0⟩, .p1, .to11⟩ ∧
    gameAfter (exec (.scPoint .p1) (withGame (zeroGames 10 10 .to11))) = some (zeroGames 11 10 .to11) ∧
    gameAfter (exec (.scPoint .p2) (withGame (zeroGames 10 11 .to11))) = some ⟨⟨0, 0⟩, ⟨0, 1⟩, .p1, .to11⟩ := by decide

/-- Section 2.4, the unreachable states: p1 tested first. -/
theorem test_point_standing_win : gameAfter (exec (.scPoint .p2) (withGame (zeroGames 11 0 .to11))) =
    some ⟨⟨0, 0⟩, ⟨1, 0⟩, .p1, .to11⟩ := by decide

/-- S3: the win is undone, mode and first server with it. -/
theorem test_undo : let g : GameState := ⟨⟨10, 9⟩, ⟨2, 1⟩, .p2, .to11⟩
    gameAfter (exec .scUndo { withGame ⟨⟨0, 0⟩, ⟨3, 1⟩, .p2, .to11⟩ with history := [g] }) = some g := by decide

/-- S4. -/
theorem test_set_mode_lock :
    gameAfter (exec (.scSetMode .to21) (withGame (zeroGames 0 1 .to11))) = some (zeroGames 0 1 .to11) ∧
    gameAfter (exec (.scSetMode .to21) (withGame ⟨⟨0, 0⟩, ⟨5, 3⟩, .p1, .to11⟩)) =
      some ⟨⟨0, 0⟩, ⟨5, 3⟩, .p1, .to21⟩ := by decide

/-- S4, section 2.4. -/
theorem test_set_first_serve_lock :
    gameAfter (exec (.scSetFs .p2) (withGame (zeroGames 1 0 .to21))) = some (zeroGames 1 0 .to21) ∧
    gameAfter (exec (.scSetFs .p2) (withGame (zeroGames 0 0 .to21))) = some ⟨⟨0, 0⟩, ⟨0, 0⟩, .p2, .to21⟩ := by decide

/-- Every button but one third sample from a press. -/
def nearlyPressed (b : Button) (s : State) : State :=
  { s with deb := setButton s.deb b ⟨.pressed, .pressed, .released, 2, .released⟩ }

/-- Section 2.5, the simultaneous triggers: mode and p1 together under `first_only`. -/
theorem test_iter_first_only :
    let r := exec (.iter 0b01001#5) (nearlyPressed .mode (nearlyPressed .p1 State.reset))
    answer r = some 0x09#8 ∧ gameAfter r = some (zeroGames 0 0 .to21) := by decide

/-- Section 2.5, the same under `all_in_order`. -/
theorem test_iter_all_in_order :
    let s := withConfig { Config.default with eventPolicy := .allInOrder }
    let r := exec (.iter 0b01001#5) (nearlyPressed .mode (nearlyPressed .p1 s))
    answer r = some 0x69#8 ∧ gameAfter r = some (zeroGames 1 0 .to21) := by decide

/-- Section 2.5: REFRESH in `(10,9,3,10,p2,to_11)`. -/
theorem test_refresh : (next? (exec .refresh (withGame ⟨⟨10, 9⟩, ⟨3, 10⟩, .p2, .to11⟩))).map State.events =
    some (.ind true false :: digitEvents .s1 0 0x3F#8 ++ digitEvents .s1 1 0x06#8 ++ digitEvents .s2 0 0x6F#8 ++
      digitEvents .s2 1 0x00#8 ++ digitEvents .g1 0 0x4F#8 ++ digitEvents .g2 0 0x3F#8) := by decide

theorem test_nop : next? (exec .nop State.reset) = some { State.reset with resp := some 0x00#8 } := by decide

/-- P3, row 22: `gs_out`; R40: `top_out` of one snapshot. -/
theorem test_readout :
    gsOut (withGame ⟨⟨11, 10⟩, ⟨0, 0⟩, .p2, .to11⟩) = some 0x00000282E ∧
    topOut { State.reset with history := [.reset] } = 0#6 ∧ topOut State.reset = -1#6 := by decide

/-- R154: with segments A and G left unconnected the pins differ from the pattern. -/
theorem test_pins : segmentPins { withConfig { Config.default with segSink := ⟨0x41#8, 0, 0, 0⟩ } with
    seg := ⟨0xFF#8, 0, 0, 0⟩ } .s1 = 0xBE#8 := by decide

/-! ## The witnesses -/

theorem witness_encoding : (Instr.rndDec .g2 65535 (some 15)).wellFormed = true ∧
    decode 0x4380FFFF#32 = .op (.rndDec .g2 65535 (some 0)) ∧
    (0x80000000#32).toNat / 2 ^ 28 = (0x80000001#32).toNat / 2 ^ 28 ∧
    decode 0x80000000#32 = .op (.scPoint .p1) ∧ decode 0x80000001#32 = .op (.scPoint .p2) := by decide

/-- StepRunsTheDecodedInstruction, ReservedWordRunsAsNopOrIsRefused (both readings), ResetLeavesTheResetValues. -/
theorem witness_step :
    ((withWord 0x90000000#32 State.reset).input = [.command 0x90000000#32] ∧
      decode 0x90000000#32 = .op .scUndo) ∧
    ((withWord 0xE0000000#32 State.reset).input = [.command 0xE0000000#32] ∧
      decode 0xE0000000#32 = .reserved .unassignedOp ∧ State.reset.cfg.reservedReading = .hardware ∧
      (withConfig { Config.default with reservedReading := .refuse }).cfg.reservedReading = .refuse) ∧
    { State.reset with input := [.reset, .reset] }.input = .reset :: [.reset] ∧ State.reset.input = [] := by decide

/-- SampleWritesTheRingAndLatches: a build with button P1 wired active-high. -/
theorem witness_active_high : ofButton Config.default.activeLow .p1 = false := by decide

/-- HysteresisFollowsTheLastThreeSamples, at the edge; SamplesOfTwoButtonsCommute. -/
theorem witness_hysteresis : windowOldestFirst (ofButton (nearlyPressed .p1 State.reset).deb .p1) =
    (.released, .pressed, .pressed) ∧ Button.mode ≠ Button.p2 := by decide

/-- NoEdgeWithoutThreeEqualSamples: section 2.1 D. -/
theorem witness_chatter :
    let s := State.reset
    hasThreeEqual ((newestTwo (ofButton s.deb .p1)).1 :: (newestTwo (ofButton s.deb .p1)).2 ::
      mappedRun s.cfg .p1 [true, false, true, false, true]) = false := by decide

/-- NumericRenderDrawsItsClosedForm: a value the build holds up to the last one, one it does not, and an unbounded
counter. -/
theorem witness_render : renderHolds Config.default 65535 ∧
    ¬renderHolds { Config.default with valueW := 8 } 256 ∧
    renderHolds { Config.default with valueW := 8, scoreW := none } 256 := by decide

/-- CustomRenderChecksItsDigit: below, past and at N, under each bound and each reading. -/
theorem witness_custom :
    let lt := withConfig { Config.default with customBound := .lt }
    let refusing := withConfig { Config.default with boundaryReading := .refuse }
    1 < digitCount State.reset.cfg .s1 ∧ digitCount State.reset.cfg .s1 < 3 ∧ 2 = digitCount State.reset.cfg .s1 ∧
    (digitCount lt.cfg .s1 = 2 ∧ lt.cfg.customBound = .lt) ∧
    (State.reset.cfg.customBound = .le ∧ State.reset.cfg.boundaryReading = .hardware) ∧
    (digitCount refusing.cfg .s1 = 2 ∧ refusing.cfg.customBound = .le ∧
      refusing.cfg.boundaryReading = .refuse) := by decide

/-- AtMostOneDigitIsEverEnabled, DurationsCountTheHolds, OnlyListedStateIsWritten,
IndicatorsShowTheServerAfterARefresh. -/
theorem witness_dark : OutputsDark State.reset ∧ (∃ t, exec .refresh State.reset = .next t) ∧
    (∃ t, exec (.iter 0#5) State.reset = .next t) ∧ (∃ t, exec .scServe State.reset = .next t) ∧
    Config.default.digits = ⟨2, 2, 1, 1⟩ ∧ Config.default.refreshOrder.Perm [.s1, .s2, .g1, .g2] :=
  ⟨fun u => by cases u <;> decide, ⟨_, rfl⟩, ⟨_, rfl⟩, ⟨_, rfl⟩, by decide, by decide⟩

/-- PointPushesIncrementsAndSettles, OnlyTheScorerWinsAndExactlyAtTheTarget, WinReadingsAgreeWithoutAStandingWin: no
standing win and the point's registers not full, with the other registers full, the scorer winning outright with the
last game its register counts, winning in deuce, and not winning. -/
theorem witness_point :
    let full : GameState := ⟨⟨254, 255⟩, ⟨255, 255⟩, .p1, .to11⟩
    let outright : GameState := ⟨⟨10, 9⟩, ⟨254, 255⟩, .p1, .to11⟩
    (NoStandingWin full ∧ pointHasRoom Config.default .p1 full ∧ ¬RoomForPoint Config.default full) ∧
    (NoStandingWin outright ∧ pointHasRoom Config.default .p1 outright ∧ pointWins .p1 outright) ∧
    (NoStandingWin (zeroGames 10 11 .to11) ∧ pointHasRoom Config.default .p2 (zeroGames 10 11 .to11) ∧
      pointWins .p2 (zeroGames 10 11 .to11)) ∧
    NoStandingWin (zeroGames 20 20 .to21) ∧ pointHasRoom Config.default .p1 (zeroGames 20 20 .to21) ∧
      ¬pointWins .p1 (zeroGames 20 20 .to21) := by
  have fits : ∀ {n : Nat}, n < 256 → FitsWidth (some 8) n := fun h k hk => by cases hk; exact h
  refine ⟨⟨fun p => by cases p <;> decide, ⟨fits (by decide), fun w hw => ?_⟩, fun h => ?_⟩,
    ⟨fun p => by cases p <;> decide, ⟨fits (by decide), fun w hw => ?_⟩, by decide⟩,
    ⟨fun p => by cases p <;> decide, ⟨fits (by decide), fun w hw => fits ?_⟩, by decide⟩,
    fun p => by cases p <;> decide, ⟨fits (by decide), fun w hw => fits ?_⟩, by decide⟩
  · exact absurd hw (by cases w <;> decide)
  · exact absurd ((h .p2).1 8 rfl) (by decide)
  · have : w = .p1 := by revert hw; cases w <;> decide
    subst this
    exact fits (by decide)
  · cases w <;> decide
  · cases w <;> decide

/-- The reset state with n snapshots. -/
def withSnapshots (n : Nat) : State := { State.reset with history := List.replicate n .reset }

/-- PointPushesThePreCallState and UndoTakesBackThePoint, from a full and from an empty history. -/
theorem witness_push :
    ((withSnapshots 32).history.length ≤ 32 ∧ topIndex (withSnapshots 32) = 31 ∧
      ∃ t, exec (.scPoint .p1) (withSnapshots 32) = .next t) ∧
    ∃ t, exec (.scPoint .p2) State.reset = .next t :=
  ⟨⟨by decide, by decide, _, rfl⟩, _, rfl⟩

/-- A build of the default widths that refuses, in a Game State. -/
def refusingIn (g : GameState) : State :=
  { withConfig { Config.default with overflowReading := .refuse } with game := g }

/-- FullRegistersRefuseThePoint, both clauses; PointCompletesUnderTheHardwareReading at a full register. -/
theorem witness_full :
    let s := refusingIn (zeroGames 255 254 .to11)
    let v := refusingIn ⟨⟨10, 0⟩, ⟨255, 0⟩, .p1, .to11⟩
    (s.cfg.overflowReading = .refuse ∧ s.cfg.scoreW = some 8 ∧ ofPlayer s.game.score .p1 = 2 ^ 8 - 1) ∧
    (v.cfg.overflowReading = .refuse ∧ v.cfg.gamesW = some 8 ∧
      FitsWidth v.cfg.scoreW (ofPlayer v.game.score .p1 + 1) ∧
      winnerAfterPoint .p1 v.game = some .p1 ∧
      ofPlayer v.game.games .p1 = 2 ^ 8 - 1) ∧
    (withGame (zeroGames 255 254 .to11)).cfg.overflowReading = .hardware ∧
      GameFits Config.default (zeroGames 255 254 .to11) := by
  refine ⟨by decide, ⟨by decide, by decide, ?_, by decide, by decide⟩, by decide, fun p => ⟨?_, ?_⟩⟩ <;>
    intro k hk <;> cases hk <;> first | (cases p <;> decide) | decide

/-- Section 2.4: at (255,254) SC.POINT is refused under its name. -/
theorem test_overflow_refused :
    refusal? (exec (.scPoint .p1) (refusingIn (zeroGames 255 254 .to11))) = some (.scoreOverflow .p1) := by decide

/-- UndoRestoresTheNewestSnapshot: a snapshot and none, and R190's example. -/
theorem witness_undo : (withSnapshots 1).history = [] ++ [GameState.reset] ∧ State.reset.history = [] ∧
    (withGame (zeroGames 10 9 .to11)).game = ⟨⟨10, 9⟩, ⟨0, 0⟩, .p1, .to11⟩ ∧
    FitsWidth State.reset.cfg.scoreW 11 ∧ FitsWidth State.reset.cfg.gamesW 1 :=
  ⟨rfl, rfl, rfl, fun k hk => by cases hk; decide, fun k hk => by cases hk; decide⟩

/-- UndosWalkBackThePoints: two points, two undos, from an empty history. -/
theorem witness_walk : State.reset.history.length ≤ 32 ∧ State.reset.history = [] ∧
    (∃ t, runOps ([Player.p1, .p2].map .scPoint) State.reset = .next t) ∧
    2 ≤ [Player.p1, .p2].length ∧ 2 = min [Player.p1, .p2].length 32 := ⟨by decide, rfl, ⟨_, rfl⟩, by decide, by decide⟩

/-- ServerByElapsedIntervals: R174's example, and scores that fit at their largest. -/
theorem witness_server : (withGame (zeroGames 1 1 .to11)).game = ⟨⟨1, 1⟩, ⟨0, 0⟩, .p1, .to11⟩ ∧
    State.reset.cfg.scoreW = some 8 ∧ GameFits State.reset.cfg (zeroGames 255 255 .to11) :=
  ⟨rfl, rfl, fun p => by constructor <;> intro k hk <;> cases hk <;> cases p <;> decide⟩

/-- SetModeActsOnlyAtZeroAll, SetFirstServeActsOnlyAtZeroAll, SettersAreIdempotentAndLocked. -/
theorem witness_setters : State.reset.game.score = ⟨0, 0⟩ ∧ (withGame (zeroGames 0 1 .to11)).game.score ≠ ⟨0, 0⟩ ∧
    ∀ i ∈ [Instr.scSetMode .to21, .scSetFs .p2], isSetter i = true := by decide

/-- A store with its index at t. -/
def storeAt (t : Int) : HistoryStore := ⟨Vector.replicate 32 .reset, t⟩

/-- StorePushAndPopWriteTheirEntry and HistoryListRefinesTheStore at both ends of the index. -/
theorem witness_store : (storeAt 31).Valid ∧ (storeAt 31).top = 31 ∧ (storeAt 30).Valid ∧ (storeAt 30).top < 31 ∧
    (storeAt (-1)).Valid ∧ (storeAt (-1)).top = -1 ∧ (storeAt 0).Valid ∧ 0 ≤ (storeAt 0).top ∧
    State.reset.history = storeSnapshots (storeAt (-1)) ∧
    (withSnapshots 32).history = storeSnapshots (storeAt 31) := by decide

/-- The runs HistoryListRefinesTheStore speaks of exist. -/
theorem witness_store_runs : (∃ t, exec (.scPoint .p1) (withSnapshots 32) = .next t) ∧
    (∃ t, exec .scUndo (withSnapshots 32) = .next t) ∧ ∃ t, exec .scUndo State.reset = .next t :=
  ⟨⟨_, rfl⟩, ⟨_, rfl⟩, _, rfl⟩

/-- UnpackInvertsPack at the largest values of the default widths. -/
theorem witness_pack : let g : GameState := ⟨⟨255, 255⟩, ⟨255, 255⟩, .p2, .to21⟩
    g.score.p1 < 2 ^ 8 ∧ g.score.p2 < 2 ^ 8 ∧ g.games.p1 < 2 ^ 8 ∧ g.games.p2 < 2 ^ 8 := by decide

/-- IterationCompletes, by room and by the reading; FirstOnlyAppliesAtMostOneEvent with and without a trigger. -/
theorem witness_iteration :
    (∀ g ∈ (withSnapshots 1).game :: (withSnapshots 1).history, RoomForPoint (withSnapshots 1).cfg g) ∧
    State.reset.cfg.overflowReading = .hardware ∧ State.reset.cfg.eventPolicy = .firstOnly ∧
    (triggered 0#5 State.reset = [] ∧ ∃ t, exec (.iter 0#5) State.reset = .next t) ∧
    triggered 0b01001#5 (nearlyPressed .mode (nearlyPressed .p1 State.reset)) = [.mode, .p1] ∧
    ∃ t, exec (.iter 0b01001#5) (nearlyPressed .mode (nearlyPressed .p1 State.reset)) = .next t := by
  refine ⟨fun g hg => ?_, by decide, by decide, ⟨by decide, _, rfl⟩, by decide, _, rfl⟩
  have : g = .reset := by simpa [withSnapshots, State.reset, State.resetWith] using hg
  subst this
  intro p
  constructor <;> intro k hk <;> cases hk <;> cases p <;> decide

/-- StepKeepsTheInvariant: the reset state with a command word meets the invariant, and steps. -/
theorem witness_invariant : StateInvariant (withWord 0xD0000000#32 State.reset) ∧
    ∃ t, step (withWord 0xD0000000#32 State.reset) = .next t := by
  refine ⟨⟨fun b => ?_, fun u => ?_, by decide, by decide, fun g hg p => ?_, fun g hg p => ?_⟩, _, rfl⟩
  · cases b <;> decide
  · cases u <;> decide
  · have : g = .reset := by simpa [withWord, State.reset, State.resetWith] using hg
    subst this
    constructor <;> intro k hk <;> cases hk <;> cases p <;> decide
  · have : g = .reset := by simpa [withWord, State.reset, State.resetWith] using hg
    subst this
    cases p <;> decide

/-- TheApplianceNeverHalts: the default build, and one of unbounded counters under `lt`, never refuse. -/
theorem witness_never_refuses : NeverRefuses Config.default ∧
    NeverRefuses { Config.default with
      customBound := .lt, boundaryReading := .refuse, overflowReading := .refuse, scoreW := none, gamesW := none } := by
  decide

/-- RefusalsAreTheFourOfTheRule: each refusal is reached, by SC.POINT and by ITER. -/
theorem witness_refusals :
    let c := { Config.default with reservedReading := .refuse, boundaryReading := .refuse, overflowReading := .refuse }
    refusal? (step (withWord 0xE0000000#32 (withConfig c))) = some (.reservedEncoding .unassignedOp) ∧
    refusal? (step (withWord 0x60000240#32 (withConfig c))) = some (.customBoundary .s1) ∧
    refusal? (step (withWord 0x80000000#32 { withConfig c with game := zeroGames 255 254 .to11 })) =
      some (.scoreOverflow .p1) ∧
    refusal? (step (withWord 0x80000000#32 { withConfig c with game := ⟨⟨10, 0⟩, ⟨255, 0⟩, .p1, .to11⟩ })) =
      some (.gamesOverflow .p1) ∧
    refusal? (step (withWord 0xC0000010#32 (nearlyPressed .p2
      { withConfig c with game := zeroGames 254 255 .to11 }))) = some (.scoreOverflow .p2) := by decide

/-- OnlyListedStateIsRead: two states that differ in their scores, and in the segment table, agree on what SC.UNDO
reads. -/
theorem witness_reads :
    let s := State.reset
    let t := { withGame (zeroGames 3 4 .to21) with cfg := { s.cfg with segTable := Vector.replicate 16 0x00#8 } }
    sameBuild s t ∧ (∀ c, reads .scUndo c = true → agreeOn s t c) ∧ s.game ≠ t.game ∧ s.cfg ≠ t.cfg := by
  refine ⟨rfl, fun c hc => ?_, by decide, by decide⟩
  cases c <;> first | rfl | cases hc

/-- R83: the default build is legal, and the default table meets R134. -/
theorem witness_legal_build : Config.default.Wf := by decide

end Sys2Proof.Tests
end

/-!
The serve indicators (R32): what each operation leaves of `ind`, and that a refresh shows the server of SC.SERVE.
-/

namespace Sys2Proof.Proofs

open Sys2Proof Sys2Proof.Machine Sys2Proof.Claims

/-! ## What leaves the indicators alone -/

/-- Answering writes no indicator: an operation keeps them when its work before the answer does. -/
theorem respond_keeps_ind {v : Byte} {s u t : State} (worked : u.ind = s.ind) (h : respond v u = .next t) :
    t.ind = s.ind := by
  cases h
  exact worked

@[simp] theorem renderNumber_ind (u : Display) (base : Radix) (value : Nat) (dp : Option Nat) (s : State) :
    (renderNumber u base value dp s).ind = s.ind := renderDigits_ind u base dp _ 0 value s

@[simp] theorem driveUnselected_ind (u : Display) (pat : Byte) (s : State) :
    (driveUnselected u pat s).ind = s.ind := rfl

/-- R152, R153: in bounds, on the boundary or out of bounds, only the outputs of the display are driven. -/
theorem execRndCustom_keeps_ind {u : Display} {pat : Byte} {digit : Nat} {s t : State}
    (h : execRndCustom u pat digit s = .next t) : t.ind = s.ind := by
  simp only [execRndCustom] at h
  split at h
  · split at h
    · exact respond_keeps_ind (by simp) h
    · split at h
      · exact respond_keeps_ind (by simp) h
      · cases h
  · exact respond_keeps_ind (begin_ind s) h

@[simp] theorem undoPoint_ind (s : State) : (undoPoint s).ind = s.ind := by
  obtain ⟨_, e⟩ | ⟨older, g, _, e⟩ := undoPoint_cases s <;> rw [e]

@[simp] theorem setMode_ind (m : Mode) (s : State) : (setMode m s).ind = s.ind := by rw [setMode_eq]

@[simp] theorem setFirstServe_ind (p : Player) (s : State) : (setFirstServe p s).ind = s.ind := by
  rw [setFirstServe_eq]

theorem execScPoint_keeps_ind {p : Player} {s t : State} (h : execScPoint p s = .next t) : t.ind = s.ind := by
  obtain ⟨g, _, rfl⟩ := execScPoint_eq_next h
  rfl

/-! ## What shows the server -/

theorem playerResponse_eq_namedBy (p : Player) : playerResponse p = namedBy p := by cases p <;> rfl

/-- R174: SC.SERVE completes on every state and names the server. -/
theorem exec_scServe_names_server (s : State) :
    ∃ u, exec .scServe s = .next u ∧ u.resp = some (namedBy (server s.game)) :=
  ⟨_, rfl, congrArg some (playerResponse_eq_namedBy (server s.game))⟩

/-- Indicators computed from the server show the player SC.SERVE names. -/
theorem ind_shows_scServe {t : State} (h : t.ind = ⟨server t.game == .p1, server t.game == .p2⟩) :
    ∃ p u, t.ind = ⟨p == .p1, p == .p2⟩ ∧ exec .scServe t = .next u ∧ u.resp = some (namedBy p) := by
  obtain ⟨u, hu, hresp⟩ := exec_scServe_names_server t
  exact ⟨server t.game, u, h, hu, hresp⟩

theorem execRefresh_ind {s t : State} (h : execRefresh s = .next t) :
    t.ind = ⟨server t.game == .p1, server t.game == .p2⟩ := by
  cases h
  simp

/-- R212: the refresh that ends ITER shows the server of the Game State the events leave. -/
theorem execIter_ind {raw : BitVec 5} {s t : State} (h : execIter raw s = .next t) :
    t.ind = ⟨server t.game == .p1, server t.game == .p2⟩ := by
  obtain ⟨u, _, rfl⟩ := execIter_eq_next h
  simp

/-- Settles O43, operation by operation: the two that end in a refresh show the server, the others keep `ind`. -/
theorem indicatorsShowTheServerAfterARefresh : Obligations.IndicatorsShowTheServerAfterARefresh := by
  unfold Obligations.IndicatorsShowTheServerAfterARefresh
  refine ⟨fun _ => rfl, fun i s t h => ?_⟩
  cases i with
  | nop => exact respond_keeps_ind (begin_ind s) h
  | dbSample b raw => exact respond_keeps_ind (by simp) h
  | dbQuery b => exact respond_keeps_ind (begin_ind s) h
  | segEnc d => exact respond_keeps_ind (begin_ind s) h
  | rndDec u value dp => exact respond_keeps_ind (by simp) h
  | rndHex u value dp => exact respond_keeps_ind (by simp) h
  | rndCustom u pattern digit => exact execRndCustom_keeps_ind h
  | scServe => exact respond_keeps_ind (begin_ind s) h
  | scPoint p => exact execScPoint_keeps_ind h
  | scUndo => exact respond_keeps_ind (by simp) h
  | scSetMode m => exact respond_keeps_ind (by simp) h
  | scSetFs p => exact respond_keeps_ind (by simp) h
  | iter raw => exact ind_shows_scServe (execIter_ind h)
  | refresh => exact ind_shows_scServe (execRefresh_ind h)

end Sys2Proof.Proofs

/-!
The opcode map (R84): for each row, its unit and operand masks together with its extra condition say exactly when the
decoder's checks on `unit` and `arg` pass, and the `op` field says which row is meant.
-/

namespace Sys2Proof.Proofs

open Sys2Proof Sys2Proof.Machine Sys2Proof.Claims

/-! ## Masks, slices and fields -/

/-- Masking with a block of `n` ones at bit `lo` leaves zero exactly when the slice there is zero. -/
theorem and_mask_eq_zero_iff_slice {m : Nat} (lo n : Nat) {mask : BitVec m}
    (block : mask = (BitVec.allOnes n).setWidth m <<< lo) (x : BitVec m) :
    x &&& mask = 0#m ↔ x.extractLsb' lo n = 0#n := by
  subst block
  constructor
  · intro h
    ext i hi
    have bit := congrArg (BitVec.getLsbD · (lo + i)) h
    by_cases inside : lo + i < m
    · have low : i < m := by omega
      simpa [inside, low, hi] using bit
    · simp [BitVec.getLsbD_of_ge x (lo + i) (by omega)]
  · intro h
    ext i hi
    by_cases inBlock : lo ≤ i ∧ i < lo + n
    · obtain ⟨k, rfl⟩ := Nat.exists_eq_add_of_le inBlock.1
      have bit : x.getLsbD (lo + k) = false := by
        simpa [Nat.lt_of_add_lt_add_left inBlock.2] using congrArg (BitVec.getLsbD · k) h
      simp [← BitVec.getLsbD_eq_getElem, bit]
    · simp
      omega

/-- Above bit `n` a 24-bit number is zero exactly when it fits in `n` bits. -/
theorem upper_bits_zero_iff (n : Nat) {a : Nat} (bound : a < 2 ^ 24) : a / 2 ^ n % 2 ^ (24 - n) = 0 ↔ a < 2 ^ n := by
  have upper : a / 2 ^ n < 2 ^ (24 - n) := by
    rw [Nat.div_lt_iff_lt_mul (Nat.two_pow_pos n), ← Nat.pow_add]
    exact bound.trans_le (Nat.pow_le_pow_right (by decide) (by omega))
  rw [Nat.mod_eq_of_lt upper, Nat.div_eq_zero_iff_lt (Nat.two_pow_pos n)]

theorem buttonOfUnit_eq_none_iff (unit : BitVec 4) :
    buttonOfUnit unit = none ↔ ¬ (unit &&& 0x8#4 = 0#4 ∧ unit.toNat ≤ 4) := by
  revert unit
  decide

theorem displayOfUnit_eq_none_iff (unit : BitVec 4) : displayOfUnit unit = none ↔ ¬ unit &&& 0xC#4 = 0#4 := by
  revert unit
  decide

theorem word_eq_iff_fields (w v : Word) :
    w = v ↔ opField w = opField v ∧ unitField w = unitField v ∧ argField w = argField v := by
  constructor
  · rintro rfl
    exact ⟨rfl, rfl, rfl⟩
  · rintro ⟨hop, hunit, harg⟩
    rw [← assemble_fields w, ← assemble_fields v, hop, hunit, harg]

@[simp] theorem opField_and (w v : Word) : opField (w &&& v) = opField w &&& opField v := BitVec.extractLsb'_and

@[simp] theorem unitField_and (w v : Word) : unitField (w &&& v) = unitField w &&& unitField v :=
  BitVec.extractLsb'_and

@[simp] theorem argField_and (w v : Word) : argField (w &&& v) = argField w &&& argField v := BitVec.extractLsb'_and

/-! ## Extra conditions on fields -/

theorem extraHolds_unitAtMost4_iff (w : Word) : extraHolds .unitAtMost4 w ↔ (unitField w).toNat ≤ 4 := by
  rw [unitField_toNat]
  rfl

theorem extraHolds_pointOnlyWhenEnabled_iff (w : Word) :
    extraHolds .pointOnlyWhenEnabled w ↔
      (argField w).getLsbD 23 = true ∨ (argField w).extractLsb' 16 4 = 0#4 := by
  rw [BitVec.getLsbD, Nat.testBit_eq_decide_div_mod_eq, decide_eq_true_iff, ← BitVec.toNat_inj, toNat_slice,
    argField_toNat]
  simp only [extraHolds, BitVec.toNat_ofNat]
  omega

/-! ## Rows of the table -/

/-- The part of a row's condition (R84) that is about `unit` and `arg`. -/
def OperandsMatch (r : OpcodeRow) (w : Word) : Prop :=
  unitField w &&& unitField r.mask = 0#4 ∧ argField w &&& argField r.mask = 0#24 ∧ extraHolds r.extra w

/-- Every row masks the whole `op` field, and its `match` is its place in the table in that field and zero below. -/
theorem opcodeMap_pattern : ∀ r ∈ opcodeMap,
    opField r.mask = BitVec.allOnes 4 ∧ opcodeMap[(opField r.pattern).toNat]? = some r ∧
      unitField r.pattern = 0#4 ∧ argField r.pattern = 0#24 := by decide

theorem opcodeMap_mnemonics_nodup : (opcodeMap.map OpcodeRow.mnemonic).Nodup := by decide

/-- R84: the `op` field alone selects the row. -/
theorem opField_eq_iff_place {r : OpcodeRow} (hr : r ∈ opcodeMap) (op : BitVec 4) :
    op = opField r.pattern ↔ opcodeMap[op.toNat]? = some r := by
  obtain ⟨_, place, _⟩ := opcodeMap_pattern r hr
  constructor
  · rintro rfl
    exact place
  · intro h
    have inTable := (List.getElem?_eq_some_iff.mp h).1
    have nodup : opcodeMap.Nodup := opcodeMap_mnemonics_nodup.of_map
    exact BitVec.eq_of_toNat_eq ((List.getElem?_inj inTable nodup).mp (h.trans place.symm))

/-- Match, mask and extra condition: the `op` field is the row's, and the operands match. -/
theorem row_condition_iff {r : OpcodeRow} (hr : r ∈ opcodeMap) (w : Word) :
    (w &&& r.mask = r.pattern ∧ extraHolds r.extra w) ↔
      opcodeMap[(opField w).toNat]? = some r ∧ OperandsMatch r w := by
  obtain ⟨opMask, _, unitZero, argZero⟩ := opcodeMap_pattern r hr
  rw [word_eq_iff_fields, opField_and, unitField_and, argField_and, opMask, BitVec.and_allOnes, unitZero, argZero,
    opField_eq_iff_place hr]
  simp only [OperandsMatch, and_assoc]

/-! ## What a format accepts -/

/-- The verdict is an operation exactly when `p` holds, and every operation it can be has mnemonic `m`. -/
structure Accepts (m : String) (p : Prop) (d : Decoded) : Prop where
  mnemonic : ∀ i, d = .op i → i.mnemonic = m
  op_iff : (∃ i, d = .op i) ↔ p

namespace Accepts

variable {m : String} {p q e : Prop} {d : Decoded} {unit : BitVec 4} {arg : BitVec 24}

theorem op {i : Instr} (name : i.mnemonic = m) (hp : p) : Accepts m p (.op i) where
  mnemonic := fun _ h => Decoded.op.inj h ▸ name
  op_iff := ⟨fun _ => hp, fun _ => ⟨i, rfl⟩⟩

theorem reserved (why : ReservedReason) (hp : ¬ p) : Accepts m p (.reserved why) where
  mnemonic := fun _ h => nomatch h
  op_iff := ⟨fun ⟨_, h⟩ => (nomatch h), fun h => absurd h hp⟩

/-- A check before a format adds its condition. -/
theorem check {c : Prop} [Decidable c] {why : ReservedReason} (hc : c ↔ q) (h : Accepts m p d) :
    Accepts m (q ∧ p) (if c then d else .reserved why) := by
  split
  case isTrue pass => simpa [hc.mp pass] using h
  case isFalse fail => exact reserved why fun both => fail (hc.mpr both.1)

theorem withoutUnit (h : Accepts m p d) : Accepts m (unit &&& 0xF#4 = 0#4 ∧ p) (withoutUnit unit d) :=
  check (by rw [show (0xF#4) = BitVec.allOnes 4 from rfl, BitVec.and_allOnes]) h

theorem withButton {k : Button → Decoded} (he : e ↔ unit.toNat ≤ 4) (h : e → ∀ b, Accepts m (p ∧ e) (k b)) :
    Accepts m (unit &&& 0x8#4 = 0#4 ∧ p ∧ e) (withButton unit k) := by
  have none_iff := buttonOfUnit_eq_none_iff unit
  unfold Sys2Proof.withButton
  cases named : buttonOfUnit unit with
  | none => exact reserved _ fun ⟨hunit, _, hextra⟩ => none_iff.mp named ⟨hunit, he.mp hextra⟩
  | some b =>
    obtain ⟨hunit, small⟩ : unit &&& 0x8#4 = 0#4 ∧ unit.toNat ≤ 4 := by simpa [named] using none_iff
    simpa [hunit] using h (he.mpr small) b

theorem withDisplay {k : Display → Decoded} (h : ∀ u, Accepts m p (k u)) :
    Accepts m (unit &&& 0xC#4 = 0#4 ∧ p) (withDisplay unit k) := by
  have none_iff := displayOfUnit_eq_none_iff unit
  unfold Sys2Proof.withDisplay
  cases named : displayOfUnit unit with
  | none => exact reserved _ fun both => none_iff.mp named both.1
  | some u =>
    have hunit : unit &&& 0xC#4 = 0#4 := by simpa [named] using none_iff
    simpa [hunit] using h u

theorem lowField {n : Nat} {mask : BitVec 24} {k : BitVec n → Decoded}
    (block : mask = (BitVec.allOnes (24 - n)).setWidth 24 <<< n) (h : ∀ x, Accepts m p (k x)) :
    Accepts m (arg &&& mask = 0#24 ∧ p) (lowField n arg k) := by
  refine check ?_ (h _)
  rw [and_mask_eq_zero_iff_slice n (24 - n) block, ← BitVec.toNat_inj, toNat_slice, BitVec.toNat_ofNat, Nat.zero_mod]
  exact (upper_bits_zero_iff n arg.isLt).symm

theorem renderOperands {k : Nat → Option Nat → Instr} (name : ∀ value dp, (k value dp).mnemonic = m)
    (he : e ↔ arg.getLsbD 23 = true ∨ arg.extractLsb' 16 4 = 0#4) :
    Accepts m (arg &&& 0x700000#24 = 0#24 ∧ e) (renderOperands arg k) := by
  refine check (and_mask_eq_zero_iff_slice 20 3 rfl arg).symm ?_
  split
  case isTrue en => exact op (name _ _) (he.mpr (.inl en))
  case isFalse off =>
    split
    case isTrue zero => exact op (name _ _) (he.mpr (.inr zero))
    case isFalse index => exact reserved _ fun hextra => (he.mp hextra).elim off index

theorem customOperands {k : Byte → Nat → Instr} (name : ∀ pattern digit, (k pattern digit).mnemonic = m) (he : e) :
    Accepts m (arg &&& 0xFFF000#24 = 0#24 ∧ e) (customOperands arg k) :=
  check (and_mask_eq_zero_iff_slice 12 12 rfl arg).symm (op (name _ _) he)

end Accepts

/-! ## The decoder against the table -/

/-- Row by row: the format of the row's `op` accepts the operands that the row's masks and extra condition allow. -/
theorem decodeFields_accepts : ∀ {place : Nat} {r : OpcodeRow}, opcodeMap[place]? = some r → ∀ w : Word,
    Accepts r.mnemonic (OperandsMatch r w) (decodeFields place (unitField w) (argField w))
  | 0, _, rfl, _ | 3, _, rfl, _ | 7, _, rfl, _ | 8, _, rfl, _ | 9, _, rfl, _ | 10, _, rfl, _ | 11, _, rfl, _
  | 12, _, rfl, _ | 13, _, rfl, _ => .withoutUnit (.lowField rfl fun _ => .op rfl trivial)
  | 1, _, rfl, w | 2, _, rfl, w =>
    .withButton (extraHolds_unitAtMost4_iff w) fun extra _ => .lowField rfl fun _ => .op rfl extra
  | 4, _, rfl, w | 5, _, rfl, w =>
    .withDisplay fun _ => .renderOperands (fun _ _ => rfl) (extraHolds_pointOnlyWhenEnabled_iff w)
  | 6, _, rfl, _ => .withDisplay fun _ => .customOperands (fun _ _ => rfl) trivial

theorem decodeFields_outside_opcodeMap {place : Nat} (outside : opcodeMap.length ≤ place) (unit : BitVec 4)
    (arg : BitVec 24) : decodeFields place unit arg = .reserved .unassignedOp := by
  obtain ⟨n, rfl⟩ := Nat.exists_eq_add_of_le' outside
  rfl

/-- Only an `op` field that is a place of the table decodes to an operation. -/
theorem row_of_decode_op {w : Word} {i : Instr} (h : decode w = .op i) :
    ∃ r, opcodeMap[(opField w).toNat]? = some r := by
  by_cases inTable : (opField w).toNat < opcodeMap.length
  · exact ⟨_, List.getElem?_eq_getElem inTable⟩
  · rw [decode, decodeFields_outside_opcodeMap (Nat.le_of_not_lt inTable)] at h
    cases h

/-- Settles O3: the row at the word's `op` field is the only one it can decode to, and its format's checks are the
row's condition. -/
theorem decoderFollowsTheOpcodeMap : Obligations.DecoderFollowsTheOpcodeMap := by
  unfold Obligations.DecoderFollowsTheOpcodeMap
  refine ⟨fun r hr w => ?_, fun w w' i j sameOp hi hj => ?_⟩
  · rw [row_condition_iff hr]
    constructor
    · rintro ⟨i, hi, name⟩
      obtain ⟨r', place⟩ := row_of_decode_op hi
      have accepts := decodeFields_accepts place w
      have sameName : r'.mnemonic = r.mnemonic := (accepts.mnemonic i hi).symm.trans name
      obtain rfl : r' = r :=
        List.inj_on_of_nodup_map opcodeMap_mnemonics_nodup (List.mem_of_getElem? place) hr sameName
      exact ⟨place, accepts.op_iff.mp ⟨i, hi⟩⟩
    · rintro ⟨place, operands⟩
      have accepts := decodeFields_accepts place w
      obtain ⟨i, hi⟩ := accepts.op_iff.mpr operands
      exact ⟨i, hi, accepts.mnemonic i hi⟩
  · rw [← opField_toNat, ← opField_toNat] at sameOp
    obtain ⟨r, place⟩ := row_of_decode_op hi
    calc i.mnemonic = r.mnemonic := (decodeFields_accepts place w).mnemonic i hi
      _ = j.mnemonic := ((decodeFields_accepts (sameOp ▸ place) w').mnemonic j hj).symm

end Sys2Proof.Proofs

/-!
The debouncer (R112, R116): the words of DB.SAMPLE and DB.QUERY, each operation in one equation on every state, and
R112's example of three samples from reset.
-/

namespace Sys2Proof.Proofs

open Sys2Proof Sys2Proof.Machine Sys2Proof.Claims

/-! ## The words -/

/-- R10: a button's `unit` is its index. -/
theorem unitOfButton_toNat (b : Button) : (unitOfButton b).toNat = buttonIndex b := by cases b <;> rfl

theorem decode_encode_dbSample (b : Button) (raw : Bool) :
    decode (encode (.dbSample b raw)) = .op (.dbSample b raw) := by
  have operand : lowField 1 (0#23 ++ BitVec.ofBool raw) (fun r => .op (.dbSample b (r.getLsbD 0))) =
      .op (.dbSample b raw) := by
    rw [← BitVec.cast_eq rfl (0#23 ++ BitVec.ofBool raw), lowField_append]
    cases raw <;> rfl
  rw [encode, decode_assemble]
  simpa [decodeFields, withButton] using operand

theorem encode_dbSample_toNat (b : Button) (raw : Bool) :
    (encode (.dbSample b raw)).toNat = 2 ^ 28 + 2 ^ 24 * buttonIndex b + raw.toNat := by
  rw [encode, assemble_toNat, unitOfButton_toNat, toNat_append_add, BitVec.toNat_ofBool]
  simp [Nat.mul_comm]

theorem decode_encode_dbQuery (b : Button) : decode (encode (.dbQuery b)) = .op (.dbQuery b) := by
  rw [encode, decode_assemble]
  simp [decodeFields, withButton, lowField]

theorem encode_dbQuery_toNat (b : Button) :
    (encode (.dbQuery b)).toNat = 2 * 2 ^ 28 + 2 ^ 24 * buttonIndex b := by
  rw [encode, assemble_toNat, unitOfButton_toNat]
  simp [Nat.mul_comm]

/-! ## The answers (R85) -/

theorem edgeResponse_edgeTo (l : Level) :
    edgeResponse (edgeTo l) = if l = .pressed then 0x01#8 else 0x02#8 := by cases l <;> rfl

theorem levelResponse_eq (l : Level) : levelResponse l = if l = .pressed then 0x01#8 else 0x00#8 := by
  cases l <;> rfl

/-! ## The operations -/

theorem exec_dbSample (b : Button) (raw : Bool) (s : State) :
    exec (.dbSample b raw) s = .next { s with
      deb := setButton s.deb b (sampledWindow s b raw).1
      resp := some (edgeResponse (sampledWindow s b raw).2)
      events := [] } := execDbSample_eq b raw s

theorem exec_dbQuery (b : Button) (s : State) :
    exec (.dbQuery b) s =
      .next { s with resp := some (levelResponse (ofButton s.deb b).latched), events := [] } := rfl

/-! ## From reset -/

theorem resetWith_window (c : Config) (b : Button) : ofButton (State.resetWith c).deb b = .reset := by
  cases b <;> rfl

/-- R112's example on the window alone: the ring fills slot by slot, and the third sample latches. -/
theorem sampleWindow_pressed_from_reset :
    sampleWindow .pressed .reset = (⟨.pressed, .released, .released, 1, .released⟩, .none) ∧
    sampleWindow .pressed ⟨.pressed, .released, .released, 1, .released⟩ =
      (⟨.pressed, .pressed, .released, 2, .released⟩, .none) ∧
    sampleWindow .pressed ⟨.pressed, .pressed, .released, 2, .released⟩ =
      (⟨.pressed, .pressed, .pressed, 0, .pressed⟩, .pressed) := by decide

/-- R112's example on the state, wherever the sample 1 is mapped to pressed. -/
theorem three_pressed_samples_from_reset {c : Config} {b : Button} (mapped : mappedSample c b true = .pressed) :
    responsesOf (List.replicate 3 (.dbSample b true)) (.resetWith c) = [some 0x00#8, some 0x00#8, some 0x01#8] ∧
    ∃ t, runOps (List.replicate 3 (.dbSample b true)) (.resetWith c) = .next t ∧
      ofButton t.deb b = ⟨.pressed, .pressed, .pressed, 0, .pressed⟩ := by
  have cfg : (State.resetWith c).cfg = c := rfl
  obtain ⟨first, second, third⟩ := sampleWindow_pressed_from_reset
  simp [List.replicate, responsesOf, runOps, exec_dbSample, sampledWindow, cfg, mapped, resetWith_window, first,
    second, third, edgeResponse]

/-! ## The obligations -/

/-- Settles O10: what a sample does to one window (`sampleWindow_spec`) is what DB.SAMPLE does to its button's. -/
theorem sampleWritesTheRingAndLatches : Obligations.SampleWritesTheRingAndLatches := by
  unfold Obligations.SampleWritesTheRingAndLatches
  refine ⟨fun b raw => ⟨decode_encode_dbSample b raw, encode_dbSample_toNat b raw⟩, fun c b activeHigh => ?_,
    fun b raw s => ⟨_, exec_dbSample b raw s, rfl, fun c other => ofButton_setButton_ne _ _ other, ?_⟩⟩
  · exact three_pressed_samples_from_reset (by simp [mappedSample_eq, activeHigh])
  · obtain ⟨slot0, slot1, slot2, position, latch⟩ :=
      sampleWindow_spec (mappedSample s.cfg b raw) (ofButton s.deb b)
    rw [ofButton_setButton_same, ← mappedSample_eq]
    refine ⟨slot0, slot1, slot2, position, ?_⟩
    rw [sampledWindow]
    split at latch
    case isTrue agrees =>
      obtain ⟨latched, edge⟩ := latch
      rw [if_pos agrees, edge, edgeResponse_edgeTo]
      exact ⟨latched, rfl⟩
    case isFalse keeps =>
      obtain ⟨latched, edge⟩ := latch
      rw [if_neg keeps, edge]
      exact ⟨latched, rfl⟩

/-- Settles O15: DB.QUERY answers the level of the button's window, which is released at reset. -/
theorem queryReturnsTheLatchedLevel : Obligations.QueryReturnsTheLatchedLevel := by
  unfold Obligations.QueryReturnsTheLatchedLevel
  refine ⟨fun b => ⟨decode_encode_dbQuery b, encode_dbQuery_toNat b⟩, fun b s => ?_, fun c b =>
    ⟨_, exec_dbQuery b _, ?_⟩⟩
  · rw [exec_dbQuery, levelResponse_eq]
  · rw [resetWith_window]
    rfl

end Sys2Proof.Proofs

/-!
The segment encoder (R133): the words of SEG.ENC, the table lookup within its sixteen entries, and the operation in one
equation on every state.
-/

namespace Sys2Proof.Proofs

open Sys2Proof Sys2Proof.Machine Sys2Proof.Claims

/-! ## The words of SEG.ENC -/

theorem encode_segEnc (d : BitVec 4) : encode (.segEnc d) = 0x30000000#32 ||| d.setWidth 32 := by
  revert d
  decide

theorem decode_encode_segEnc (d : BitVec 4) : decode (encode (.segEnc d)) = .op (.segEnc d) := by
  rw [encode, decode_assemble]
  exact lowField_append rfl d fun x => .op (.segEnc x)

/-! ## The table -/

/-- Every 4-bit digit has an entry, and `segmentPattern` is that entry. -/
theorem segTable_getElem?_eq_segmentPattern (c : Config) (d : BitVec 4) :
    c.segTable.toList[d.toNat]? = some (segmentPattern c d) := by
  rw [Vector.getElem?_toList, Vector.getElem?_eq_getElem d.isLt, segmentPattern, Vector.get_eq_getElem]

/-! ## SEG.ENC -/

theorem exec_segEnc (d : BitVec 4) (s : State) :
    exec (.segEnc d) s = .next { s with resp := some (segmentPattern s.cfg d), events := [] } := rfl

/-- Settles O17: a word of SEG.ENC is the encoder's own, and the response is the entry at the digit, which always
exists. -/
theorem segmentEncoderLooksUpTheTable : Obligations.SegmentEncoderLooksUpTheTable := by
  unfold Obligations.SegmentEncoderLooksUpTheTable
  refine ⟨fun d => ?_, fun d s => ⟨segmentPattern s.cfg d, segTable_getElem?_eq_segmentPattern s.cfg d,
    exec_segEnc d s⟩, ?_⟩
  · rw [← encode_segEnc, decode_encode_segEnc]
  · have tenth : segmentPattern State.reset.cfg 10#4 = 0x77#8 := by decide
    rw [exec_segEnc, tenth]
    rfl

end Sys2Proof.Proofs

/-!
The win evaluation (R38, R180, R182, R183): the machine's evaluation is one of R183's sixteen readings, and on a state
without a standing win each of them is R182's condition on the scorer.
-/

namespace Sys2Proof.Proofs

open Sys2Proof Sys2Proof.Machine Sys2Proof.Claims

/-! ## The statements' terms and the machine's -/

theorem threshold_eq_deuceAt (m : Mode) : threshold m = deuceAt m := by cases m <;> rfl

theorem target_eq_deuceAt_succ (m : Mode) : target m = deuceAt m + 1 := by cases m <;> rfl

theorem otherPlayer_eq_opponent (p : Player) : otherPlayer p = opponent p := by cases p <;> rfl

theorem setPlayer_succ_eq_oneMore (p : Player) (sc : PerPlayer Nat) :
    setPlayer sc p (ofPlayer sc p + 1) = oneMore p sc := by cases p <;> rfl

theorem setPlayer_succ_eq_oneMoreGame (w : Player) (gm : PerPlayer Nat) :
    setPlayer gm w (ofPlayer gm w + 1) = oneMoreGame w gm := by cases w <;> rfl

@[simp] theorem opponent_opponent (p : Player) : opponent (opponent p) = p := by cases p <;> rfl

theorem eq_or_eq_opponent (q p : Player) : q = p ∨ q = opponent p := by cases q <;> cases p <;> decide

@[simp] theorem ofPlayer_oneMore_same (p : Player) (sc : PerPlayer Nat) :
    ofPlayer (oneMore p sc) p = ofPlayer sc p + 1 := by cases p <;> rfl

@[simp] theorem ofPlayer_oneMore_opponent (p : Player) (sc : PerPlayer Nat) :
    ofPlayer (oneMore p sc) (opponent p) = ofPlayer sc (opponent p) := by cases p <;> rfl

/-- A test of both scores, seen from a player: own score first. -/
theorem both_reach_iff (p : Player) (t : Nat) (sc : PerPlayer Nat) :
    (t ≤ sc.p1 ∧ t ≤ sc.p2) ↔ (t ≤ ofPlayer sc p ∧ t ≤ ofPlayer sc (opponent p)) := by
  cases p with
  | p1 => rfl
  | p2 => exact and_comm

theorem winner_eq_winnerOf (g : GameState) : winner g = winnerOf g.mode g.score.p1 g.score.p2 := by
  simp only [winner, winnerOf, deuce, threshold_eq_deuceAt, target_eq_deuceAt_succ, Bool.and_eq_true,
    decide_eq_true_eq, Nat.succ_le_iff]

/-! ## No standing win -/

/-- R38, seen from a player: in deuce the two are less than two apart, else both are below the target. -/
theorem noStandingWin_iff_of_player (p : Player) (g : GameState) : NoStandingWin g ↔
    if deuceAt g.mode ≤ ofPlayer g.score p ∧ deuceAt g.mode ≤ ofPlayer g.score (opponent p) then
      ofPlayer g.score p < ofPlayer g.score (opponent p) + 2 ∧ ofPlayer g.score (opponent p) < ofPlayer g.score p + 2
    else ofPlayer g.score p ≤ deuceAt g.mode ∧ ofPlayer g.score (opponent p) ≤ deuceAt g.mode := by
  have both : NoStandingWin g ↔ ¬StandingWin g p ∧ ¬StandingWin g (opponent p) :=
    ⟨fun h => ⟨h p, h _⟩, fun ⟨own, other⟩ q => by cases p <;> cases q <;> assumption⟩
  rw [both]
  simp only [StandingWin, threshold_eq_deuceAt, otherPlayer_eq_opponent, opponent_opponent, both_reach_iff p]
  split <;> omega

/-- R38 is the evaluation's own condition: nobody has a standing win when it names no winner. -/
theorem noStandingWin_iff_winnerOf (g : GameState) :
    NoStandingWin g ↔ winnerOf g.mode g.score.p1 g.score.p2 = none := by
  rw [noStandingWin_iff_of_player .p1]
  simp only [winnerOf, ofPlayer, opponent, if_true]
  split_ifs <;> simp <;> omega

theorem noStandingWin_of_zeroAll {g : GameState} (zero : g.score = ⟨0, 0⟩) : NoStandingWin g := by
  rw [noStandingWin_iff_winnerOf, zero]
  cases g.mode <;> rfl

/-! ## The sixteen readings -/

/-- The machine's evaluation is the reading that tests deuce after the increment, both players, p1 first, by `>=`. -/
theorem winnerAfterPoint_eq_winnerIn (p : Player) (g : GameState) :
    winnerAfterPoint p g = winnerIn ⟨false, false, false, false⟩ p g := by
  simp only [winnerAfterPoint, winnerOf, winnerIn, winsIn, reaches]
  by_cases inDeuce : deuceAt g.mode ≤ (oneMore p g.score).p1 ∧ deuceAt g.mode ≤ (oneMore p g.score).p2
  · simp [inDeuce, ofPlayer, opponent]
  · simp [if_neg inDeuce, ofPlayer, opponent]

/-- `=` and `>=` agree on a score that is not past the bound. -/
theorem reaches_iff_of_le (r : WinReading) {a b : Nat} (le : a ≤ b) : reaches r a b = true ↔ a = b := by
  unfold reaches
  split
  · simp
  · simp only [decide_eq_true_eq]
    omega

/-- And no reading lets a score below the bound reach it. -/
theorem reaches_eq_false_of_lt (r : WinReading) {a b : Nat} (lt : a < b) : reaches r a b = false := by
  rw [← Bool.not_eq_true, reaches_iff_of_le r lt.le]
  exact lt.ne

/-- The score that makes q the winner in a reading, p having scored from g: two more than the other in deuce, else the
target. -/
def scoreToReach (r : WinReading) (p q : Player) (g : GameState) : Nat :=
  let tested := if r.deuceBefore then g.score else oneMore p g.score
  if deuceAt g.mode ≤ tested.p1 ∧ deuceAt g.mode ≤ tested.p2 then ofPlayer (oneMore p g.score) (opponent q) + 2
  else deuceAt g.mode + 1

theorem winsIn_eq (r : WinReading) (p q : Player) (g : GameState) : winsIn r p q g =
    ((!r.scorerOnly || p == q) && reaches r (ofPlayer (oneMore p g.score) q) (scoreToReach r p q g)) := by
  simp only [winsIn, scoreToReach]
  split_ifs <;> rfl

section

variable (p : Player) {g : GameState} (noWin : NoStandingWin g)

include noWin

/-- The scorer, one point up, is at most at the score to reach, and at it under R182's condition. Testing deuce before
the increment differs only where the increment itself reaches the threshold, and there both scores to reach are
higher. -/
theorem scorer_reaches_iff (r : WinReading) : ofPlayer (oneMore p g.score) p ≤ scoreToReach r p p g ∧
    (ofPlayer (oneMore p g.score) p = scoreToReach r p p g ↔ pointWins p g) := by
  rw [noStandingWin_iff_of_player p] at noWin
  simp only [scoreToReach, pointWins, both_reach_iff p]
  cases r.deuceBefore <;> simp only [Bool.false_eq_true, if_true, if_false, ofPlayer_oneMore_same,
    ofPlayer_oneMore_opponent] <;> split_ifs at noWin ⊢ <;> omega

theorem opponent_lt_scoreToReach (r : WinReading) :
    ofPlayer (oneMore p g.score) (opponent p) < scoreToReach r p (opponent p) g := by
  rw [noStandingWin_iff_of_player p] at noWin
  simp only [scoreToReach, both_reach_iff p, opponent_opponent]
  cases r.deuceBefore <;> simp only [Bool.false_eq_true, if_true, if_false, ofPlayer_oneMore_same,
    ofPlayer_oneMore_opponent] <;> split_ifs at noWin ⊢ <;> omega

/-- R183: the scorer wins in a reading exactly under R182's condition. -/
theorem winsIn_scorer (r : WinReading) : winsIn r p p g = true ↔ pointWins p g := by
  obtain ⟨le, reached⟩ := scorer_reaches_iff p noWin r
  simp only [winsIn_eq, beq_self_eq_true, Bool.or_true, Bool.true_and, reaches_iff_of_le r le, reached]

/-- R182: a point of p does not make the other player win, in any reading. -/
theorem winsIn_opponent (r : WinReading) : winsIn r p (opponent p) g = false := by
  rw [winsIn_eq, reaches_eq_false_of_lt r (opponent_lt_scoreToReach p noWin r), Bool.and_false]

/-- R183: on a state without a standing win every reading names the scorer under R182's condition, else nobody;
whoever is tested first. -/
theorem winnerIn_eq (r : WinReading) :
    winnerIn r p g = if pointWins p g then some p else none := by
  have scorer := winsIn_scorer p noWin r
  have other := winsIn_opponent p noWin r
  simp only [winnerIn]
  rcases eq_or_eq_opponent (if r.p2First then .p2 else .p1) p with first | first
  · simp only [first, scorer, other]
    rfl
  · simp only [first, scorer, other, opponent_opponent]
    rfl

theorem winnerAfterPoint_eq :
    winnerAfterPoint p g = if pointWins p g then some p else none := by
  rw [winnerAfterPoint_eq_winnerIn, winnerIn_eq p noWin]

end

/-! ## SC.POINT with room in the registers it increments -/

theorem settled_of_no_winner {c : Config} {g : GameState} (noWinner : winner g = none) : settled c g = .ok g := by
  rw [settled, noWinner]

theorem settled_of_winner {c : Config} {g : GameState} {w : Player} (wins : winner g = some w)
    (room : FitsWidth c.gamesW (ofPlayer g.games w + 1)) :
    settled c g = .ok { g with score := ⟨0, 0⟩, games := oneMoreGame w g.games } := by
  simp only [settled, wins, incremented_of_fits _ room, setPlayer_succ_eq_oneMoreGame]

/-- R180: the point is the statements' `afterPoint`. -/
theorem pointAwarded_of_room {c : Config} {p : Player} {g : GameState} (room : pointHasRoom c p g) :
    pointAwarded c p g = .ok (afterPoint p g) := by
  obtain ⟨scoreRoom, gamesRoom⟩ := room
  simp only [pointAwarded, incremented_of_fits _ scoreRoom, setPlayer_succ_eq_oneMore]
  have evaluation := winner_eq_winnerOf { g with score := oneMore p g.score }
  cases win : winnerAfterPoint p g with
  | none => rw [settled_of_no_winner (evaluation.trans win), afterPoint, win]
  | some w => rw [settled_of_winner (evaluation.trans win) (gamesRoom w win), afterPoint, win]

theorem exec_scPoint_of_room {p : Player} {s : State} (room : pointHasRoom s.cfg p s.game) :
    exec (.scPoint p) s = .next { s with
      game := afterPoint p s.game, history := pushed s.history s.game, resp := some 0x00#8, events := [] } := by
  simp only [exec, execScPoint, awardPoint, begin_cfg, begin_game, pointAwarded_of_room room, andThen_next,
    respond_eq]
  rfl

/-- R182: the evaluation leaves no standing win, whatever stood before. -/
theorem noStandingWin_afterPoint (p : Player) (g : GameState) : NoStandingWin (afterPoint p g) := by
  unfold afterPoint
  split
  case h_1 noWinner => exact (noStandingWin_iff_winnerOf _).2 noWinner
  case h_2 => exact noStandingWin_of_zeroAll rfl

/-- R182 on the Game State: the scorer's game, or the point alone. -/
theorem afterPoint_eq {p : Player} {g : GameState} (noWin : NoStandingWin g) : afterPoint p g =
    if pointWins p g then { g with score := ⟨0, 0⟩, games := oneMoreGame p g.games }
    else { g with score := oneMore p g.score } := by
  unfold afterPoint
  rw [winnerAfterPoint_eq p noWin]
  split_ifs <;> rfl

/-- Settles O27: with room the point is `afterPoint`, which without a standing win before is decided by R182's
condition on the scorer. -/
theorem onlyTheScorerWinsAndExactlyAtTheTarget : Obligations.OnlyTheScorerWinsAndExactlyAtTheTarget := by
  unfold Obligations.OnlyTheScorerWinsAndExactlyAtTheTarget
  refine ⟨fun p s room => ⟨_, exec_scPoint_of_room room, rfl⟩, fun p s noWin room =>
    ⟨_, exec_scPoint_of_room room, ?_, ?_, noStandingWin_afterPoint p s.game⟩⟩
  · simp only [afterPoint_eq noWin, apply_ite GameState.games]
  · simp only [afterPoint_eq noWin, apply_ite GameState.score]

/-- Settles O28: every reading names the winner the machine's own reading names. -/
theorem winReadingsAgreeWithoutAStandingWin : Obligations.WinReadingsAgreeWithoutAStandingWin := by
  unfold Obligations.WinReadingsAgreeWithoutAStandingWin
  intro r p s noWin room
  refine ⟨_, exec_scPoint_of_room room, ?_⟩
  have agree : winnerIn r p s.game = winnerAfterPoint p s.game := by
    rw [winnerIn_eq p noWin, winnerAfterPoint_eq p noWin]
  rw [agree]
  rfl

end Sys2Proof.Proofs

/-!
The rest of the scoring engine: SC.SERVE by elapsed intervals (R173, R174), SC.UNDO (R190) and the two setters (R192 to
R194).
-/

namespace Sys2Proof.Proofs

open Sys2Proof Sys2Proof.Machine Sys2Proof.Claims

/-! ## SC.SERVE -/

/-- R173: the interval, in the statements' numbers. -/
theorem serveInterval_eq (g : GameState) : serveInterval g =
    if deuceAt g.mode ≤ g.score.p1 ∧ deuceAt g.mode ≤ g.score.p2 then 1 else if g.mode = .to11 then 2 else 5 := by
  simp only [serveInterval, deuce, deuceInterval, threshold_eq_deuceAt, Bool.and_eq_true, decide_eq_true_eq]
  cases g.mode <;> rfl

theorem serveInterval_pos (g : GameState) : 0 < serveInterval g := by
  rw [serveInterval_eq]
  split_ifs <;> decide

theorem server_eq (g : GameState) : server g =
    if (g.score.p1 + g.score.p2) / serveInterval g % 2 = 0 then g.firstServe else opponent g.firstServe := by
  rw [server, intervalsElapsed, otherPlayer_eq_opponent]

/-- R174: at 0-0 no interval has elapsed. -/
theorem server_of_zeroAll {g : GameState} (zero : g.score = ⟨0, 0⟩) : server g = g.firstServe := by
  rw [server_eq, zero, Nat.add_zero, Nat.zero_div]
  rfl

theorem exec_scServe (s : State) :
    exec .scServe s = .next { s with resp := some (namedBy (server s.game)), events := [] } := by
  rw [← playerResponse_eq_namedBy]
  rfl

/-- Settles O23: the statement's interval is `serveInterval`, which is never 0, and SC.SERVE names `server`. -/
theorem serverByElapsedIntervals : Obligations.ServerByElapsedIntervals := by
  unfold Obligations.ServerByElapsedIntervals
  refine ⟨by decide, fun s game => ⟨_, exec_scServe s, ?_⟩, fun s k width fits => ?_, fun s => ⟨?_, ?_⟩⟩
  · rw [game]
    rfl
  · have first : s.game.score.p1 < 2 ^ k := (fits .p1).1 k width
    have second : s.game.score.p2 < 2 ^ k := (fits .p2).1 k width
    rw [Nat.pow_succ]
    omega
  · rw [← serveInterval_eq]
    exact (serveInterval_pos s.game).ne'
  · rw [← serveInterval_eq, ← server_eq]
    exact exec_scServe s

/-! ## SC.UNDO -/

theorem exec_scUndo_append {s : State} {older : List GameState} {g : GameState} (newest : s.history = older ++ [g]) :
    exec .scUndo s = .next { s with game := g, history := older, resp := some 0x00#8, events := [] } := by
  simp only [exec, execScUndo, undoPoint_append (s := begin s) newest, respond_eq]
  rfl

theorem exec_scUndo_nil {s : State} (empty : s.history = []) :
    exec .scUndo s = .next { s with resp := some 0x00#8, events := [] } := by
  simp only [exec, execScUndo, undoPoint_nil (s := begin s) empty, respond_eq]
  rfl

/-- Settles O31: in R190's example the point has pushed the Game State before it, whatever it had to discard. -/
theorem undoRestoresTheNewestSnapshot : Obligations.UndoRestoresTheNewestSnapshot := by
  unfold Obligations.UndoRestoresTheNewestSnapshot
  refine ⟨by decide, fun s older g => exec_scUndo_append, fun s => exec_scUndo_nil,
    fun s game scoreRoom gamesRoom => ?_⟩
  have room : pointHasRoom s.cfg .p1 s.game := by
    rw [game]
    refine ⟨scoreRoom, fun w wins => ?_⟩
    have outright : w = .p1 := by
      revert wins
      cases w <;> decide
    rw [outright]
    exact gamesRoom
  refine ⟨_, exec_scPoint_of_room room, ?_, _, exec_scUndo_append rfl, rfl⟩
  rw [game]
  rfl

/-! ## The setters -/

theorem exec_scSetMode (m : Mode) (s : State) : exec (.scSetMode m) s = .next { s with
    game := if s.game.score = ⟨0, 0⟩ then { s.game with mode := m } else s.game, resp := some 0x00#8,
    events := [] } := by
  simp only [exec, execScSetMode, setMode_eq, respond_eq]
  rfl

theorem exec_scSetFs (p : Player) (s : State) : exec (.scSetFs p) s = .next { s with
    game := if s.game.score = ⟨0, 0⟩ then { s.game with firstServe := p } else s.game, resp := some 0x00#8,
    events := [] } := by
  simp only [exec, execScSetFs, setFirstServe_eq, respond_eq]
  rfl

/-- Settles O34: SC.SETMODE in one equation, and 0-0 is no standing win in any mode. -/
theorem setModeActsOnlyAtZeroAll : Obligations.SetModeActsOnlyAtZeroAll := by
  unfold Obligations.SetModeActsOnlyAtZeroAll
  exact ⟨⟨by decide, by decide⟩, fun m g zero => noStandingWin_of_zeroAll zero, exec_scSetMode⟩

/-- Settles O35: at 0-0 the first server is the server, and a refresh shows the server. -/
theorem setFirstServeActsOnlyAtZeroAll : Obligations.SetFirstServeActsOnlyAtZeroAll := by
  unfold Obligations.SetFirstServeActsOnlyAtZeroAll
  refine ⟨⟨by decide, by decide⟩, fun p s => ⟨_, exec_scSetFs p s, rfl, fun zero => ?_⟩⟩
  rw [if_pos zero]
  have serves : server { s.game with firstServe := p } = p := server_of_zeroAll zero
  refine ⟨⟨_, exec_scServe _, ?_⟩, _, rfl, ?_⟩
  · rw [serves]
  · simp [serves]

/-- R193: a setter with some score nonzero only answers. -/
theorem exec_setter_locked {i : Instr} {s : State} (setter : isSetter i = true) (nonzero : s.game.score ≠ ⟨0, 0⟩) :
    exec i s = .next { s with resp := some 0x00#8, events := [] } := by
  cases i with
  | scSetMode m => rw [exec_scSetMode, if_neg nonzero]
  | scSetFs p => rw [exec_scSetFs, if_neg nonzero]
  | _ => cases setter

/-- R193: a run of setters with some score nonzero only answers, 0 each time. -/
theorem runOps_setters_locked {ops : List Instr} {s : State} (setters : ∀ i ∈ ops, isSetter i = true)
    (nonzero : s.game.score ≠ ⟨0, 0⟩) :
    (∃ t, runOps ops s = .next t ∧ t = { s with resp := t.resp, events := t.events }) ∧
      ∀ r ∈ responsesOf ops s, r = some 0x00#8 := by
  induction ops generalizing s with
  | nil => exact ⟨⟨s, rfl, rfl⟩, nofun⟩
  | cons i rest ih =>
    obtain ⟨first, later⟩ := List.forall_mem_cons.1 setters
    have one := exec_setter_locked first nonzero
    obtain ⟨⟨t, run, same⟩, answers⟩ := ih (s := { s with resp := some 0x00#8, events := [] }) later nonzero
    refine ⟨⟨t, ?_, same⟩, ?_⟩
    · rw [runOps, one, andThen_next, run]
    · simp only [responsesOf, one]
      exact List.forall_mem_cons.2 ⟨rfl, answers⟩

/-- R193: a setter on the state it leaves writes the same again. -/
theorem exec_setter_twice {i : Instr} (setter : isSetter i = true) (s : State) :
    andThen (exec i s) (exec i) = exec i s := by
  cases i with
  | scSetMode m =>
    rw [exec_scSetMode, andThen_next, exec_scSetMode]
    by_cases zero : s.game.score = ⟨0, 0⟩ <;> simp [zero]
  | scSetFs p =>
    rw [exec_scSetFs, andThen_next, exec_scSetFs]
    by_cases zero : s.game.score = ⟨0, 0⟩ <;> simp [zero]
  | _ => cases setter

theorem runOps_singleton (i : Instr) : runOps [i] = exec i := by
  funext s
  rw [runOps]
  cases exec i s <;> rfl

/-- Settles O36: by induction on the run where locked, and by the setter's own equation where not. -/
theorem settersAreIdempotentAndLocked : Obligations.SettersAreIdempotentAndLocked := by
  unfold Obligations.SettersAreIdempotentAndLocked
  refine ⟨fun ops s setters nonzero => ?_, fun i s setter _ => ?_⟩
  · obtain ⟨⟨t, run, same⟩, answers⟩ := runOps_setters_locked setters nonzero
    exact ⟨t, run, same, answers⟩
  · rw [runOps, runOps_singleton, exec_setter_twice setter]

end Sys2Proof.Proofs

/-!
NOP of the iteration sequencer (R210): its word, and the operation in one equation on every state.
-/

namespace Sys2Proof.Proofs

open Sys2Proof Sys2Proof.Machine Sys2Proof.Claims

/-- R84: NOP's word has every field zero. -/
theorem encode_nop : encode .nop = 0x00000000#32 := by decide

theorem decode_encode_nop : decode (encode .nop) = .op .nop := by
  rw [encode, decode_assemble]
  simp [decodeFields, withoutUnit, lowField]

/-- R210: NOP is the beginning of an operation and its answer, with no work between. -/
theorem exec_nop (s : State) : exec .nop s = .next { s with resp := some 0x00#8, events := [] } :=
  respond_eq 0x00#8 (begin s)

/-- Settles O41: the all-zero word is the encoder's own word of NOP, and NOP's equation holds on every state. -/
theorem nopDoesNothing : Obligations.NopDoesNothing := by
  unfold Obligations.NopDoesNothing
  refine ⟨?_, exec_nop⟩
  rw [← encode_nop, decode_encode_nop]

end Sys2Proof.Proofs

/-!
What a build's null sinks and hold length leave unread (R154, R272, D4, D6): every operation commutes with building the
core anew with other null sinks and another hold.
-/

namespace Sys2Proof.Proofs

open Sys2Proof Sys2Proof.Machine Sys2Proof.Claims

section Rebuilt

variable (sinks : PerDisplay Byte) (hold : Nat)

/-! ## Results -/

/-- The outcome of a run on the same core built with other null sinks and another hold. -/
def rebuiltResult (r : Result) : Result := andThen r fun t => .next (rebuilt sinks hold t)

@[simp] theorem rebuiltResult_next (s : State) :
    rebuiltResult sinks hold (.next s) = .next (rebuilt sinks hold s) := rfl

@[simp] theorem rebuiltResult_refused (r : Refusal) : rebuiltResult sinks hold (.refused r) = .refused r := rfl

/-- Two builds' outcomes are alike when the second is the first rebuilt. -/
theorem alike_rebuiltResult (r : Result) :
    alike (fun t u => u = rebuilt sinks hold t) r (rebuiltResult sinks hold r) := by
  cases r with
  | next s => rfl
  | fault f => cases f
  | refused x => rfl

@[simp] theorem respond_rebuilt (v : Byte) (s : State) :
    respond v (rebuilt sinks hold s) = rebuiltResult sinks hold (respond v s) := rfl

/-- A sequence commutes with rebuilding when what follows does. -/
theorem andThen_rebuiltResult {k : State → Result} (r : Result)
    (follows : ∀ s, k (rebuilt sinks hold s) = rebuiltResult sinks hold (k s)) :
    andThen (rebuiltResult sinks hold r) k = rebuiltResult sinks hold (andThen r k) := by
  cases r with
  | next s => exact follows s
  | fault f => cases f
  | refused x => rfl

/-! ## What the operations read of a rebuilt state -/

@[simp] theorem rebuilt_game (s : State) : (rebuilt sinks hold s).game = s.game := rfl
@[simp] theorem rebuilt_history (s : State) : (rebuilt sinks hold s).history = s.history := rfl
@[simp] theorem rebuilt_refreshOrder (s : State) :
    (rebuilt sinks hold s).cfg.refreshOrder = s.cfg.refreshOrder := rfl
@[simp] theorem rebuilt_customBound (s : State) :
    (rebuilt sinks hold s).cfg.customBound = s.cfg.customBound := rfl
@[simp] theorem rebuilt_boundaryReading (s : State) :
    (rebuilt sinks hold s).cfg.boundaryReading = s.cfg.boundaryReading := rfl
@[simp] theorem rebuilt_eventPolicy (s : State) :
    (rebuilt sinks hold s).cfg.eventPolicy = s.cfg.eventPolicy := rfl
@[simp] theorem digitPattern_rebuilt (s : State) (dp : Option Nat) (i : Nat) (g : Glyph) :
    digitPattern (rebuilt sinks hold s).cfg dp i g = digitPattern s.cfg dp i g := by cases g <;> rfl
@[simp] theorem digitCount_rebuilt (s : State) (u : Display) :
    digitCount (rebuilt sinks hold s).cfg u = digitCount s.cfg u := rfl
@[simp] theorem commandValue_rebuilt (s : State) (u : Display) (value : Nat) :
    commandValue (rebuilt sinks hold s).cfg u value = commandValue s.cfg u value := rfl
@[simp] theorem pointAwarded_rebuilt (s : State) (p : Player) (g : GameState) :
    pointAwarded (rebuilt sinks hold s).cfg p g = pointAwarded s.cfg p g := rfl
@[simp] theorem triggers_rebuilt (s : State) (edges : PerButton Edge) :
    triggers (rebuilt sinks hold s).cfg edges = triggers s.cfg edges := rfl

/-! ## The beginning of an operation and its output events -/

@[simp] theorem begin_rebuilt (s : State) : begin (rebuilt sinks hold s) = rebuilt sinks hold (begin s) := rfl

/-- R154, R272: an event drives the same outputs whatever the pins sink, and a `HOLD` is one event however long. -/
@[simp] theorem emit_rebuilt (e : Event) (s : State) :
    emit e (rebuilt sinks hold s) = rebuilt sinks hold (emit e s) := by cases e <;> rfl

@[simp] theorem driveDigit_rebuilt (u : Display) (i : Nat) (pat : Byte) (s : State) :
    driveDigit u i pat (rebuilt sinks hold s) = rebuilt sinks hold (driveDigit u i pat s) := by simp [driveDigit]

@[simp] theorem driveUnselected_rebuilt (u : Display) (pat : Byte) (s : State) :
    driveUnselected u pat (rebuilt sinks hold s) = rebuilt sinks hold (driveUnselected u pat s) := by
  simp [driveUnselected]

/-- R148's loop draws the same patterns on every digit. -/
theorem renderDigits_rebuilt (u : Display) (base : Radix) (dp : Option Nat) (n i v : Nat) (s : State) :
    renderDigits u base dp n i v (rebuilt sinks hold s) = rebuilt sinks hold (renderDigits u base dp n i v s) := by
  induction n generalizing i v s with
  | zero => rfl
  | succ n ih => simp only [renderDigits, digitPattern_rebuilt, driveDigit_rebuilt, ih]

@[simp] theorem renderNumber_rebuilt (u : Display) (base : Radix) (value : Nat) (dp : Option Nat) (s : State) :
    renderNumber u base value dp (rebuilt sinks hold s) = rebuilt sinks hold (renderNumber u base value dp s) :=
  renderDigits_rebuilt sinks hold u base dp (digitCount s.cfg u) 0 value s

/-- R152, R153: in bounds, on the boundary and out of bounds alike. -/
theorem execRndCustom_rebuilt (u : Display) (pat : Byte) (digit : Nat) (s : State) :
    execRndCustom u pat digit (rebuilt sinks hold s) = rebuiltResult sinks hold (execRndCustom u pat digit s) := by
  simp only [execRndCustom, rebuilt_customBound, rebuilt_boundaryReading, digitCount_rebuilt, begin_rebuilt,
    driveDigit_rebuilt, driveUnselected_rebuilt, respond_rebuilt]
  split
  · split
    · rfl
    · cases s.cfg.boundaryReading <;> rfl
  · rfl

/-! ## The scoring engine -/

/-- R180: the point, or its refusal, is decided by the counters' widths and the reading of their overflow. -/
theorem awardPoint_rebuilt (p : Player) (s : State) :
    awardPoint p (rebuilt sinks hold s) = rebuiltResult sinks hold (awardPoint p s) := by
  simp only [awardPoint, pointAwarded_rebuilt, rebuilt_game]
  cases pointAwarded s.cfg p s.game <;> rfl

@[simp] theorem undoPoint_rebuilt (s : State) :
    undoPoint (rebuilt sinks hold s) = rebuilt sinks hold (undoPoint s) := by
  simp only [undoPoint, rebuilt_history]
  cases popped s.history <;> rfl

@[simp] theorem setMode_rebuilt (m : Mode) (s : State) :
    setMode m (rebuilt sinks hold s) = rebuilt sinks hold (setMode m s) := by
  rw [setMode_eq, setMode_eq]
  rfl

@[simp] theorem setFirstServe_rebuilt (p : Player) (s : State) :
    setFirstServe p (rebuilt sinks hold s) = rebuilt sinks hold (setFirstServe p s) := by
  rw [setFirstServe_eq, setFirstServe_eq]
  rfl

theorem execScPoint_rebuilt (p : Player) (s : State) :
    execScPoint p (rebuilt sinks hold s) = rebuiltResult sinks hold (execScPoint p s) := by
  rw [execScPoint, begin_rebuilt, awardPoint_rebuilt]
  exact andThen_rebuiltResult sinks hold _ (respond_rebuilt sinks hold _)

/-! ## The iteration sequencer -/

theorem foldl_showDisplay_rebuilt (us : List Display) (s : State) :
    us.foldl showDisplay (rebuilt sinks hold s) = rebuilt sinks hold (us.foldl showDisplay s) := by
  induction us generalizing s with
  | nil => rfl
  | cons u us ih =>
    have first : showDisplay (rebuilt sinks hold s) u = rebuilt sinks hold (showDisplay s u) := by simp [showDisplay]
    rw [List.foldl_cons, first, ih, List.foldl_cons]

@[simp] theorem refreshOutputs_rebuilt (s : State) :
    refreshOutputs (rebuilt sinks hold s) = rebuilt sinks hold (refreshOutputs s) := by
  simp [refreshOutputs, showServer, foldl_showDisplay_rebuilt]

/-- R212: the five samples leave the rebuilt state and report the same edges. -/
@[simp] theorem sampleAll_rebuilt (raw : PerButton Bool) (s : State) :
    sampleAll raw (rebuilt sinks hold s) = (rebuilt sinks hold (sampleAll raw s).1, (sampleAll raw s).2) := rfl

theorem handleButton_rebuilt (b : Button) (s : State) :
    handleButton b (rebuilt sinks hold s) = rebuiltResult sinks hold (handleButton b s) := by
  cases b with
  | mode => simp [handleButton]
  | fs => simp [handleButton]
  | undo => simp [handleButton]
  | p1 => exact awardPoint_rebuilt sinks hold .p1 s
  | p2 => exact awardPoint_rebuilt sinks hold .p2 s

theorem handleAll_rebuilt (bs : List Button) (s : State) :
    handleAll bs (rebuilt sinks hold s) = rebuiltResult sinks hold (handleAll bs s) := by
  induction bs generalizing s with
  | nil => rfl
  | cons b bs ih =>
    rw [handleAll, handleButton_rebuilt]
    exact andThen_rebuiltResult sinks hold _ ih

theorem execIter_rebuilt (raw : BitVec 5) (s : State) :
    execIter raw (rebuilt sinks hold s) = rebuiltResult sinks hold (execIter raw s) := by
  simp only [execIter, begin_rebuilt, sampleAll_rebuilt, triggers_rebuilt, rebuilt_eventPolicy, handleAll_rebuilt]
  exact andThen_rebuiltResult sinks hold _ fun t => by simp

/-! ## Every operation -/

/-- Running an operation commutes with rebuilding the core. -/
theorem exec_rebuilt (i : Instr) (s : State) :
    exec i (rebuilt sinks hold s) = rebuiltResult sinks hold (exec i s) := by
  cases i with
  | nop => rfl
  | dbSample b raw => rfl
  | dbQuery b => rfl
  | segEnc d => rfl
  | rndDec u value dp => simp [exec, execRndDec]
  | rndHex u value dp => simp [exec, execRndHex]
  | rndCustom u pattern digit => exact execRndCustom_rebuilt sinks hold u pattern digit s
  | scServe => rfl
  | scPoint p => exact execScPoint_rebuilt sinks hold p s
  | scUndo => simp [exec, execScUndo]
  | scSetMode m => simp [exec, execScSetMode]
  | scSetFs p => simp [exec, execScSetFs]
  | iter raw => exact execIter_rebuilt sinks hold raw s
  | refresh => simp [exec, execRefresh]

end Rebuilt

/-- Settles O22: every operation on the rebuilt core ends in its own outcome rebuilt. -/
theorem nullSinksAndHoldLengthAreNotRead : Obligations.NullSinksAndHoldLengthAreNotRead := by
  unfold Obligations.NullSinksAndHoldLengthAreNotRead
  intro i sinks hold s
  rw [exec_rebuilt]
  exact alike_rebuiltResult sinks hold (exec i s)

end Sys2Proof.Proofs

/-!
The encoder against the decoder (R81 to R86): a format that accepts an operand word has read the operands it is spelled
from, so the two are inverse to each other; and the words no format accepts are those of R86's list.
-/

namespace Sys2Proof.Proofs

open Sys2Proof Sys2Proof.Machine Sys2Proof.Claims

/-! ## The word of an instruction decodes to it -/

/-- A unit-less format that reads `n` low bits of `arg` decodes its own operand word. -/
theorem decode_assemble_lowField {n k : Nat} (width : k + n = 24) {op : BitVec 4} (f : BitVec n → Decoded)
    (format : ∀ arg, decodeFields op.toNat 0#4 arg = lowField n arg f) (x : BitVec n) :
    decode (assemble op 0#4 ((0#k ++ x).cast width)) = f x := by
  rw [decode_assemble, format, lowField_append]

theorem decode_assemble_noOperand {op : BitVec 4} {i : Instr}
    (format : ∀ arg, decodeFields op.toNat 0#4 arg = lowField 0 arg fun _ => .op i) :
    decode (assemble op 0#4 0#24) = .op i := by
  rw [decode_assemble, format]
  simp [lowField]

theorem decode_encode_scServe : decode (encode .scServe) = .op .scServe :=
  decode_assemble_noOperand (op := 0x7#4) fun _ => rfl

theorem decode_encode_scPoint (p : Player) : decode (encode (.scPoint p)) = .op (.scPoint p) := by
  have read := decode_assemble_lowField (op := 0x8#4) rfl
    (fun x => .op (.scPoint (playerOfBit (x.getLsbD 0)))) (fun _ => rfl) (bitOfPlayer p)
  rwa [playerOfBit_bitOfPlayer] at read

theorem decode_encode_scUndo : decode (encode .scUndo) = .op .scUndo :=
  decode_assemble_noOperand (op := 0x9#4) fun _ => rfl

theorem decode_encode_scSetMode (m : Mode) : decode (encode (.scSetMode m)) = .op (.scSetMode m) := by
  have read := decode_assemble_lowField (op := 0xA#4) rfl
    (fun x => .op (.scSetMode (modeOfBit (x.getLsbD 0)))) (fun _ => rfl) (bitOfMode m)
  rwa [modeOfBit_bitOfMode] at read

theorem decode_encode_scSetFs (p : Player) : decode (encode (.scSetFs p)) = .op (.scSetFs p) := by
  have read := decode_assemble_lowField (op := 0xB#4) rfl
    (fun x => .op (.scSetFs (playerOfBit (x.getLsbD 0)))) (fun _ => rfl) (bitOfPlayer p)
  rwa [playerOfBit_bitOfPlayer] at read

theorem decode_encode_iter (raw : BitVec 5) : decode (encode (.iter raw)) = .op (.iter raw) :=
  decode_assemble_lowField (op := 0xC#4) rfl (fun x => .op (.iter x)) (fun _ => rfl) raw

theorem decode_encode_refresh : decode (encode .refresh) = .op .refresh :=
  decode_assemble_noOperand (op := 0xD#4) fun _ => rfl

theorem withDisplay_unitOfDisplay (u : Display) (k : Display → Decoded) : withDisplay (unitOfDisplay u) k = k u := by
  rw [withDisplay, displayOfUnit_unitOfDisplay]

theorem decode_encode_rndDec (u : Display) {value : Nat} {dp : Option Nat} (fits : value < 65536)
    (point : pointFits dp = true) : decode (encode (.rndDec u value dp)) = .op (.rndDec u value dp) := by
  rw [encode, decode_assemble]
  exact (withDisplay_unitOfDisplay u _).trans (renderOperands_renderArg (.rndDec u) fits point)

theorem decode_encode_rndHex (u : Display) {value : Nat} {dp : Option Nat} (fits : value < 65536)
    (point : pointFits dp = true) : decode (encode (.rndHex u value dp)) = .op (.rndHex u value dp) := by
  rw [encode, decode_assemble]
  exact (withDisplay_unitOfDisplay u _).trans (renderOperands_renderArg (.rndHex u) fits point)

theorem decode_encode_rndCustom (u : Display) (pattern : Byte) {digit : Nat} (fits : digit < 16) :
    decode (encode (.rndCustom u pattern digit)) = .op (.rndCustom u pattern digit) := by
  rw [encode, decode_assemble]
  exact (withDisplay_unitOfDisplay u _).trans (customOperands_customArg pattern (.rndCustom u) fits)

/-- Settles O1, operation by operation: each format reads back the operands of its own word. -/
theorem decodeOfEncodeIsTheInstruction : Obligations.DecodeOfEncodeIsTheInstruction := by
  unfold Obligations.DecodeOfEncodeIsTheInstruction
  intro i wf
  cases i with
  | nop => exact decode_encode_nop
  | dbSample b raw => exact decode_encode_dbSample b raw
  | dbQuery b => exact decode_encode_dbQuery b
  | segEnc d => exact decode_encode_segEnc d
  | rndDec u value dp =>
    obtain ⟨fits, point⟩ := Bool.and_eq_true_iff.1 wf
    exact decode_encode_rndDec u (of_decide_eq_true fits) point
  | rndHex u value dp =>
    obtain ⟨fits, point⟩ := Bool.and_eq_true_iff.1 wf
    exact decode_encode_rndHex u (of_decide_eq_true fits) point
  | rndCustom u pattern digit => exact decode_encode_rndCustom u pattern (of_decide_eq_true wf)
  | scServe => exact decode_encode_scServe
  | scPoint p => exact decode_encode_scPoint p
  | scUndo => exact decode_encode_scUndo
  | scSetMode m => exact decode_encode_scSetMode m
  | scSetFs p => exact decode_encode_scSetFs p
  | iter raw => exact decode_encode_iter raw
  | refresh => exact decode_encode_refresh

/-! ## A word that decodes is the word of its instruction -/

theorem bitOfPlayer_playerOfBit (x : BitVec 1) : bitOfPlayer (playerOfBit (x.getLsbD 0)) = x := by
  revert x
  decide

theorem bitOfMode_modeOfBit (x : BitVec 1) : bitOfMode (modeOfBit (x.getLsbD 0)) = x := by
  revert x
  decide

theorem ofBool_getLsbD_zero (x : BitVec 1) : BitVec.ofBool (x.getLsbD 0) = x := by
  revert x
  decide

/-- Every operation the verdict can be is well formed and has the fields it was read from. -/
def Reencodes (op unit : BitVec 4) (arg : BitVec 24) (d : Decoded) : Prop :=
  ∀ i, d = .op i → i.wellFormed = true ∧ encode i = assemble op unit arg

namespace Reencodes

variable {op unit : BitVec 4} {arg : BitVec 24}

theorem of_op {i : Instr} (wf : i.wellFormed = true) (word : encode i = assemble op unit arg) :
    Reencodes op unit arg (.op i) := fun _ h => Decoded.op.inj h ▸ ⟨wf, word⟩

theorem reserved (why : ReservedReason) : Reencodes op unit arg (.reserved why) := nofun

theorem withoutUnit {d : Decoded} (h : Reencodes op 0#4 arg d) : Reencodes op unit arg (withoutUnit unit d) := by
  unfold Sys2Proof.withoutUnit
  split
  case isTrue zero => exact zero ▸ h
  case isFalse => exact reserved _

theorem withButton {k : Button → Decoded} (h : ∀ b, Reencodes op (unitOfButton b) arg (k b)) :
    Reencodes op unit arg (withButton unit k) := by
  unfold Sys2Proof.withButton
  cases named : buttonOfUnit unit with
  | none => exact reserved _
  | some b => exact unitOfButton_of_some named ▸ h b

theorem withDisplay {k : Display → Decoded} (h : ∀ u, Reencodes op (unitOfDisplay u) arg (k u)) :
    Reencodes op unit arg (withDisplay unit k) := by
  unfold Sys2Proof.withDisplay
  cases named : displayOfUnit unit with
  | none => exact reserved _
  | some u => exact unitOfDisplay_of_some named ▸ h u

theorem lowField {n k : Nat} (width : k + n = 24) {f : BitVec n → Decoded}
    (h : ∀ x, Reencodes op unit ((0#k ++ x).cast width) (f x)) : Reencodes op unit arg (lowField n arg f) := by
  intro i accepted
  obtain ⟨x, rfl, read⟩ := lowField_eq_op width accepted
  exact h x i read

/-- A format without operand bits: `arg` is 0. -/
theorem lowField_zero {i : Instr} (wf : i.wellFormed = true) (word : encode i = assemble op unit 0#24) :
    Reencodes op unit arg (Sys2Proof.lowField 0 arg fun _ => .op i) :=
  lowField (k := 24) rfl fun x => Subsingleton.elim 0#0 x ▸ of_op wf word

theorem renderOperands {k : Nat → Option Nat → Instr}
    (wf : ∀ value dp, (k value dp).wellFormed = (valueFits value && pointFits dp))
    (word : ∀ value dp, encode (k value dp) = assemble op unit (renderArg value dp)) :
    Reencodes op unit arg (renderOperands arg k) := by
  intro i accepted
  obtain ⟨value, dp, fits, point, rfl, rfl⟩ := renderOperands_eq_op accepted
  exact ⟨by rw [wf, Bool.and_eq_true_iff]; exact ⟨decide_eq_true fits, point⟩, word value dp⟩

theorem customOperands {k : Byte → Nat → Instr} (wf : ∀ pattern digit, (k pattern digit).wellFormed = digitFits digit)
    (word : ∀ pattern digit, encode (k pattern digit) = assemble op unit (customArg pattern digit)) :
    Reencodes op unit arg (customOperands arg k) := by
  intro i accepted
  obtain ⟨pattern, digit, fits, rfl, rfl⟩ := customOperands_eq_op accepted
  exact ⟨by rw [wf]; simpa using fits, word pattern digit⟩

end Reencodes

/-- R84, row by row. -/
theorem decodeFields_reencodes : ∀ (op : Nat) (unit : BitVec 4) (arg : BitVec 24),
    Reencodes (BitVec.ofNat 4 op) unit arg (decodeFields op unit arg)
  | 0, _, _ | 7, _, _ | 9, _, _ | 13, _, _ => .withoutUnit (.lowField_zero rfl rfl)
  | 1, _, _ => .withButton fun b => .lowField (k := 23) rfl fun x =>
      .of_op rfl (congrArg (fun bit : BitVec 1 => assemble 1#4 (unitOfButton b) (0#23 ++ bit)) (ofBool_getLsbD_zero x))
  | 2, _, _ => .withButton fun _ => .lowField_zero rfl rfl
  | 3, _, _ => .withoutUnit (.lowField (k := 20) rfl fun _ => .of_op rfl rfl)
  | 4, _, _ | 5, _, _ => .withDisplay fun _ => .renderOperands (fun _ _ => rfl) fun _ _ => rfl
  | 6, _, _ => .withDisplay fun _ => .customOperands (fun _ _ => rfl) fun _ _ => rfl
  | 8, _, _ => .withoutUnit (.lowField (k := 23) rfl fun x =>
      .of_op rfl (congrArg (fun bit : BitVec 1 => assemble 8#4 0#4 (0#23 ++ bit)) (bitOfPlayer_playerOfBit x)))
  | 10, _, _ => .withoutUnit (.lowField (k := 23) rfl fun x =>
      .of_op rfl (congrArg (fun bit : BitVec 1 => assemble 10#4 0#4 (0#23 ++ bit)) (bitOfMode_modeOfBit x)))
  | 11, _, _ => .withoutUnit (.lowField (k := 23) rfl fun x =>
      .of_op rfl (congrArg (fun bit : BitVec 1 => assemble 11#4 0#4 (0#23 ++ bit)) (bitOfPlayer_playerOfBit x)))
  | 12, _, _ => .withoutUnit (.lowField (k := 19) rfl fun _ => .of_op rfl rfl)
  | _ + 14, _, _ => .reserved _

/-- Settles O2: the fields of the word are those its instruction is spelled with. -/
theorem encodeOfDecodeIsTheWord : Obligations.EncodeOfDecodeIsTheWord := by
  unfold Obligations.EncodeOfDecodeIsTheWord
  intro w i decoded
  obtain ⟨wf, word⟩ := decodeFields_reencodes (opField w).toNat (unitField w) (argField w) i decoded
  rw [BitVec.ofNat_toNat, BitVec.setWidth_eq, assemble_fields] at word
  exact ⟨wf, word⟩

/-! ## The reserved words -/

/-- The verdict is `reserved`, whatever the reason. -/
def IsReserved (d : Decoded) : Prop := ∃ why, d = .reserved why

@[simp] theorem isReserved_reserved (why : ReservedReason) : IsReserved (.reserved why) := ⟨why, rfl⟩

@[simp] theorem not_isReserved_op (i : Instr) : ¬IsReserved (.op i) := nofun

theorem isReserved_withoutUnit (unit : BitVec 4) (d : Decoded) :
    IsReserved (withoutUnit unit d) ↔ unit.toNat ≠ 0 ∨ IsReserved d := by
  have zero : unit = 0#4 ↔ unit.toNat = 0 := by rw [← BitVec.toNat_inj]; rfl
  unfold withoutUnit
  split <;> simp_all

theorem buttonOfUnit_eq_none_iff_lt (unit : BitVec 4) : buttonOfUnit unit = none ↔ 4 < unit.toNat := by
  revert unit
  decide

theorem displayOfUnit_eq_none_iff_lt (unit : BitVec 4) : displayOfUnit unit = none ↔ 3 < unit.toNat := by
  revert unit
  decide

theorem isReserved_withButton {unit : BitVec 4} {k : Button → Decoded} {p : Prop}
    (h : ∀ b, IsReserved (k b) ↔ p) : IsReserved (withButton unit k) ↔ 4 < unit.toNat ∨ p := by
  rw [← buttonOfUnit_eq_none_iff_lt, withButton]
  cases buttonOfUnit unit <;> simp [h]

theorem isReserved_withDisplay {unit : BitVec 4} {k : Display → Decoded} {p : Prop}
    (h : ∀ u, IsReserved (k u) ↔ p) : IsReserved (withDisplay unit k) ↔ 3 < unit.toNat ∨ p := by
  rw [← displayOfUnit_eq_none_iff_lt, withDisplay]
  cases displayOfUnit unit <;> simp [h]

theorem isReserved_lowField (n : Nat) (arg : BitVec 24) (k : BitVec n → Instr) :
    IsReserved (lowField n arg fun x => .op (k x)) ↔ 2 ^ n ≤ arg.toNat := by
  unfold lowField
  split <;> simp <;> omega

theorem isReserved_renderOperands (arg : BitVec 24) (k : Nat → Option Nat → Instr) :
    IsReserved (renderOperands arg k) ↔
      arg.toNat / 2 ^ 20 % 8 ≠ 0 ∨ (arg.toNat / 2 ^ 23 = 0 ∧ arg.toNat / 2 ^ 16 % 16 ≠ 0) := by
  have bound := arg.isLt
  have mustBeZero : arg.extractLsb' 20 3 = 0#3 ↔ arg.toNat / 2 ^ 20 % 8 = 0 := by
    rw [← BitVec.toNat_inj, toNat_slice]; rfl
  have index : arg.extractLsb' 16 4 = 0#4 ↔ arg.toNat / 2 ^ 16 % 16 = 0 := by
    rw [← BitVec.toNat_inj, toNat_slice]; rfl
  have enabled : arg.getLsbD 23 = true ↔ arg.toNat / 2 ^ 23 ≠ 0 := by
    rw [BitVec.getLsbD, Nat.testBit_eq_decide_div_mod_eq, decide_eq_true_iff]
    omega
  simp only [renderOperands, mustBeZero, index, enabled]
  split_ifs <;> simp_all

theorem isReserved_customOperands (arg : BitVec 24) (k : Byte → Nat → Instr) :
    IsReserved (customOperands arg k) ↔ arg.toNat / 2 ^ 12 ≠ 0 := by
  have bound := arg.isLt
  have mustBeZero : arg.extractLsb' 12 12 = 0#12 ↔ arg.toNat / 2 ^ 12 = 0 := by
    rw [← BitVec.toNat_inj, toNat_slice, BitVec.toNat_ofNat]
    omega
  simp only [customOperands, mustBeZero]
  split <;> simp_all

/-- R86's clauses, `op` by `op`. -/
theorem isReserved_decodeFields_iff (op : Nat) (unit : BitVec 4) (arg : BitVec 24) :
    IsReserved (decodeFields op unit arg) ↔ reservedByRule op unit.toNat arg.toNat := by
  match op with
  | 0 | 3 | 7 | 8 | 9 | 10 | 11 | 12 | 13 =>
    simp [reservedByRule, decodeFields, isReserved_withoutUnit, isReserved_lowField, Nat.one_le_iff_ne_zero]
  | 1 | 2 =>
    simp [reservedByRule, decodeFields, isReserved_withButton fun _ => isReserved_lowField _ _ _,
      Nat.one_le_iff_ne_zero]
  | 4 | 5 => simp [reservedByRule, decodeFields, isReserved_withDisplay fun _ => isReserved_renderOperands _ _]
  | 6 => simp [reservedByRule, decodeFields, isReserved_withDisplay fun _ => isReserved_customOperands _ _]
  | n + 14 => simp [reservedByRule, decodeFields]

/-- Settles O4: what each format refuses is its clauses of R86's list. -/
theorem reservedWordsAreTheListedOnes : Obligations.ReservedWordsAreTheListedOnes := by
  unfold Obligations.ReservedWordsAreTheListedOnes
  intro w
  rw [← opField_toNat, ← unitField_toNat, ← argField_toNat]
  exact isReserved_decodeFields_iff (opField w).toNat (unitField w) (argField w)

/-- Settles O5: R91's words are fixed, and the decoder computes. -/
theorem workedWordsDecode : Obligations.WorkedWordsDecode := by
  unfold Obligations.WorkedWordsDecode
  decide

end Sys2Proof.Proofs

/-!
Runs of samples (R113 to R115, R117): one sample read as a shift of the two newest slots, then inductions over the run.
-/

namespace Sys2Proof.Proofs

open Sys2Proof Sys2Proof.Machine Sys2Proof.Claims

/-! ## Runs of operations -/

theorem runOps_cons_of_next {i : Instr} {s t : State} (h : exec i s = .next t) (rest : List Instr) :
    runOps (i :: rest) s = runOps rest t := by rw [runOps, h, andThen_next]

theorem responsesOf_cons_of_next {i : Instr} {s t : State} (h : exec i s = .next t) (rest : List Instr) :
    responsesOf (i :: rest) s = t.resp :: responsesOf rest t := by
  simp only [responsesOf, h]

/-! ## One sample -/

/-- The state DB.SAMPLE leaves. -/
def sampledState (b : Button) (raw : Bool) (s : State) : State :=
  { s with
    deb := setButton s.deb b (sampledWindow s b raw).1
    resp := some (edgeResponse (sampledWindow s b raw).2)
    events := [] }

theorem exec_dbSample_sampledState (b : Button) (raw : Bool) (s : State) :
    exec (.dbSample b raw) s = .next (sampledState b raw s) := exec_dbSample b raw s

@[simp] theorem sampledState_cfg (b : Button) (raw : Bool) (s : State) : (sampledState b raw s).cfg = s.cfg := rfl

@[simp] theorem sampledState_resp (b : Button) (raw : Bool) (s : State) :
    (sampledState b raw s).resp = some (edgeResponse (sampledWindow s b raw).2) := rfl

@[simp] theorem sampledState_window (b : Button) (raw : Bool) (s : State) :
    ofButton (sampledState b raw s).deb b = (sampledWindow s b raw).1 := ofButton_setButton_same _ _ _

theorem sampledState_window_ne {b c : Button} (raw : Bool) (s : State) (h : c ≠ b) :
    ofButton (sampledState b raw s).deb c = ofButton s.deb c := ofButton_setButton_ne _ _ h

theorem newestTwo_sampledWindow (b : Button) (raw : Bool) (s : State) :
    newestTwo (sampledWindow s b raw).1 = ((newestTwo (ofButton s.deb b)).2, mappedSample s.cfg b raw) := by
  rw [newestTwo, sampledWindow, sampleWindow_shifts]
  rfl

/-- R113: three equal newest samples of the other level latch it. -/
theorem sampledWindow_of_edge {b : Button} {raw : Bool} {s : State} {w : Level × Level} {m : Level}
    (newest : newestTwo (ofButton s.deb b) = w) (mapped : mappedSample s.cfg b raw = m)
    (h : w.1 = w.2 ∧ w.2 = m ∧ m ≠ (ofButton s.deb b).latched) :
    (sampledWindow s b raw).1.latched = m ∧ (sampledWindow s b raw).2 = edgeTo m := by
  have latch := sampleWindow_latches (mappedSample s.cfg b raw) (ofButton s.deb b)
  subst newest mapped
  exact (if_pos h).mp latch

/-- R113: any other three newest samples hold the level. -/
theorem sampledWindow_of_no_edge {b : Button} {raw : Bool} {s : State} {w : Level × Level} {m : Level}
    (newest : newestTwo (ofButton s.deb b) = w) (mapped : mappedSample s.cfg b raw = m)
    (h : ¬(w.1 = w.2 ∧ w.2 = m ∧ m ≠ (ofButton s.deb b).latched)) :
    (sampledWindow s b raw).1.latched = (ofButton s.deb b).latched ∧ (sampledWindow s b raw).2 = .none := by
  have latch := sampleWindow_latches (mappedSample s.cfg b raw) (ofButton s.deb b)
  subst newest mapped
  exact (if_neg h).mp latch

/-- Settles O11: with an edge the two newest slots and the sample are all of the level the button was not at. -/
theorem hysteresisFollowsTheLastThreeSamples : Obligations.HysteresisFollowsTheLastThreeSamples := by
  unfold Obligations.HysteresisFollowsTheLastThreeSamples
  intro b raw s a c e window
  refine ⟨_, exec_dbSample_sampledState b raw s, ?_⟩
  have newest : newestTwo (ofButton s.deb b) = (c, e) := congrArg Prod.snd window
  have shifted : windowOldestFirst (sampledWindow s b raw).1 = (c, e, mappedSample s.cfg b raw) := by
    rw [sampledWindow, sampleWindow_shifts, window]
  rw [← mappedSample_eq, sampledState_window, sampledState_resp, shifted]
  refine ⟨rfl, ?_⟩
  generalize hm : mappedSample s.cfg b raw = m
  by_cases edge : c = e ∧ e = m ∧ m ≠ (ofButton s.deb b).latched
  · obtain ⟨level, answer⟩ := sampledWindow_of_edge newest hm edge
    obtain ⟨rfl, rfl, moved⟩ := edge
    rw [level, answer]
    generalize (ofButton s.deb b).latched = was at moved ⊢
    cases c <;> cases was <;> simp_all [edgeTo, edgeResponse]
  · obtain ⟨level, answer⟩ := sampledWindow_of_no_edge newest hm edge
    rw [level, answer]
    generalize (ofButton s.deb b).latched = was at edge ⊢
    refine ⟨?_, ?_, .inl rfl, ?_⟩
    · simp only [edgeResponse]
      constructor
      · simp
      · rintro ⟨rfl, rfl, rfl, rfl⟩
        exact absurd ⟨rfl, rfl, nofun⟩ edge
    · constructor
      · simp [edgeResponse]
      · rintro ⟨rfl, rfl, rfl, rfl⟩
        exact absurd ⟨rfl, rfl, nofun⟩ edge
    · simp [edgeResponse]

/-! ## A run of samples -/

theorem mappedRun_cons (c : Config) (b : Button) (raw : Bool) (raws : List Bool) :
    mappedRun c b (raw :: raws) = mappedSample c b raw :: mappedRun c b raws := by
  rw [mappedRun, List.map_cons, ← mappedSample_eq]
  rfl

theorem responsesOf_sampleRun_cons (b : Button) (raw : Bool) (raws : List Bool) (s : State) :
    responsesOf (sampleRun b (raw :: raws)) s =
      some (edgeResponse (sampledWindow s b raw).2) :: responsesOf (sampleRun b raws) (sampledState b raw s) :=
  responsesOf_cons_of_next (exec_dbSample_sampledState b raw s) _

theorem runOps_sampleRun_cons (b : Button) (raw : Bool) (raws : List Bool) (s : State) :
    runOps (sampleRun b (raw :: raws)) s = runOps (sampleRun b raws) (sampledState b raw s) :=
  runOps_cons_of_next (exec_dbSample_sampledState b raw s) _

/-- R115 with the mapped samples and the two stages named. -/
theorem responsesOf_sampleRun (b : Button) (raws : List Bool) (s : State) :
    responsesOf (sampleRun b raws) s =
      (shiftRegisterEdges (mappedRun s.cfg b raws) (newestTwo (ofButton s.deb b)) (ofButton s.deb b).latched).map
        some := by
  induction raws generalizing s with
  | nil => rfl
  | cons raw raws ih =>
    rw [responsesOf_sampleRun_cons, ih, sampledState_cfg, sampledState_window, newestTwo_sampledWindow,
      mappedRun_cons]
    rcases hw : newestTwo (ofButton s.deb b) with ⟨a, c⟩
    by_cases edge : a = c ∧ c = mappedSample s.cfg b raw ∧ mappedSample s.cfg b raw ≠ (ofButton s.deb b).latched
    · obtain ⟨level, answer⟩ := sampledWindow_of_edge hw rfl edge
      rw [level, answer, edgeResponse_edgeTo, shiftRegisterEdges, if_pos edge, List.map_cons]
    · obtain ⟨level, answer⟩ := sampledWindow_of_no_edge hw rfl edge
      rw [level, answer, shiftRegisterEdges, if_neg edge, List.map_cons]
      rfl

/-- Settles O12, by induction on the run. -/
theorem ringAnswersAsAShiftRegister : Obligations.RingAnswersAsAShiftRegister := by
  unfold Obligations.RingAnswersAsAShiftRegister
  exact responsesOf_sampleRun

/-! ## The edges of a run -/

/-- Edges that alternate, the first being the one a button at level l can report. -/
def AlternatesFrom (l : Level) (edges : List (Option Byte)) : Prop :=
  edges = (List.range edges.length).map fun k =>
    if (if l = .released then k else k + 1) % 2 = 0 then some 0x01#8 else some 0x02#8

theorem alternatesFrom_cons {l m : Level} {edges : List (Option Byte)} (moved : m ≠ l) (h : AlternatesFrom m edges) :
    AlternatesFrom l (some (if m = .pressed then 0x01#8 else 0x02#8) :: edges) := by
  rw [AlternatesFrom, List.length_cons, List.range_succ_eq_map, List.map_cons, List.map_map]
  conv_lhs => rw [h]
  cases l <;> cases m <;> simp_all [Function.comp_def, Nat.add_assoc]

theorem shiftRegisterEdges_alternate (ms : List Level) (w : Level × Level) (l : Level) :
    AlternatesFrom l (((shiftRegisterEdges ms w l).map some).filter (· ≠ some 0x00#8)) := by
  induction ms generalizing w l with
  | nil => exact rfl
  | cons m ms ih =>
    obtain ⟨a, c⟩ := w
    unfold shiftRegisterEdges
    split
    case isTrue edge =>
      have reported : some (if m = Level.pressed then 0x01#8 else 0x02#8) ≠ some 0x00#8 := by cases m <;> decide
      rw [List.map_cons, List.filter_cons_of_pos (by simpa using reported)]
      exact alternatesFrom_cons edge.2.2 (ih (c, m) m)
    case isFalse => exact ih (c, m) l

/-- Settles O13: on the shift register, whose level after an edge is the one that edge moved to. -/
theorem edgesOfAButtonAlternate : Obligations.EdgesOfAButtonAlternate := by
  unfold Obligations.EdgesOfAButtonAlternate
  intro b raws s
  rw [responsesOf_sampleRun]
  exact shiftRegisterEdges_alternate _ _ _

theorem hasThreeEqual_cons_eq_false {x y z : Level} {rest : List Level}
    (h : hasThreeEqual (x :: y :: z :: rest) = false) :
    ¬(x = y ∧ y = z) ∧ hasThreeEqual (y :: z :: rest) = false := by
  rw [hasThreeEqual, Bool.or_eq_false_iff] at h
  obtain ⟨first, later⟩ := h
  exact ⟨by simpa using first, later⟩

/-- Settles O14, by induction on the run: without three equal samples there is no edge, and the level holds. -/
theorem noEdgeWithoutThreeEqualSamples : Obligations.NoEdgeWithoutThreeEqualSamples := by
  unfold Obligations.NoEdgeWithoutThreeEqualSamples
  intro b raws s chatter
  induction raws generalizing s with
  | nil => exact ⟨s, rfl, rfl, rfl⟩
  | cons raw raws ih =>
    rw [mappedRun_cons] at chatter
    obtain ⟨notEqual, later⟩ := hasThreeEqual_cons_eq_false chatter
    obtain ⟨level, answer⟩ := sampledWindow_of_no_edge (raw := raw) rfl rfl
      fun ⟨first, second, _⟩ => notEqual ⟨first, second⟩
    obtain ⟨t, run, answers, held⟩ := ih (sampledState b raw s) (by
      rw [sampledState_window, newestTwo_sampledWindow]
      exact later)
    refine ⟨t, ?_, ?_, ?_⟩
    · rw [runOps_sampleRun_cons, run]
    · rw [responsesOf_sampleRun_cons, answers, answer]
      rfl
    · rw [held, sampledState_window, level]

/-! ## Two buttons -/

theorem setButton_comm {α : Type} (f : PerButton α) {b c : Button} (x y : α) (h : b ≠ c) :
    setButton (setButton f b x) c y = setButton (setButton f c y) b x := by
  cases b <;> cases c <;> simp_all [setButton]

/-- R117: a sample reads its own button's window only. -/
theorem sampledWindow_sampledState_ne {b c : Button} (x y : Bool) (s : State) (h : c ≠ b) :
    sampledWindow (sampledState b x s) c y = sampledWindow s c y := by
  rw [sampledWindow, sampledState_window_ne x s h]
  rfl

theorem sampledState_sampledState_ne {b c : Button} (x y : Bool) (s : State) (h : c ≠ b) :
    sampledState c y (sampledState b x s) = { s with
      deb := setButton (setButton s.deb b (sampledWindow s b x).1) c (sampledWindow s c y).1
      resp := some (edgeResponse (sampledWindow s c y).2)
      events := [] } := by
  rw [sampledState, sampledWindow_sampledState_ne x y s h]
  rfl

/-- Settles O16: each sample reads and writes its own window, whatever the other did before. -/
theorem samplesOfTwoButtonsCommute : Obligations.SamplesOfTwoButtonsCommute := by
  unfold Obligations.SamplesOfTwoButtonsCommute
  intro b c x y s ne
  refine ⟨_, _, _, _, exec_dbSample_sampledState b x s, exec_dbSample_sampledState c y _,
    exec_dbSample_sampledState c y s, exec_dbSample_sampledState b x _, ?_, ?_, ?_⟩
  · rw [sampledState_sampledState_ne y x s ne, sampledState_resp]
  · rw [sampledState_sampledState_ne x y s ne.symm, sampledState_resp]
  · rw [sampledState_sampledState_ne y x s ne, sampledState_sampledState_ne x y s ne.symm, setButton_comm _ _ _ ne]

end Sys2Proof.Proofs

/-!
SC.POINT on every state (R180, R181, R184): the point in the statements' terms, its two refusals, and SC.UNDO after it;
with them the residues of the server (R175) and R195's condition on the scores.
-/

namespace Sys2Proof.Proofs

open Sys2Proof Sys2Proof.Machine Sys2Proof.Claims

/-! ## The server by the residue of the total -/

theorem firstServerServes_iff (g : GameState) :
    firstServerServes g ↔ (g.score.p1 + g.score.p2) / serveInterval g % 2 = 0 := by
  rw [serveInterval_eq]
  simp only [firstServerServes]
  split_ifs <;> omega

/-- Settles O24: a residue of the total modulo two intervals is the parity of the intervals elapsed. -/
theorem serverAlternatesWithTheTotal : Obligations.ServerAlternatesWithTheTotal := by
  unfold Obligations.ServerAlternatesWithTheTotal
  intro s
  refine ⟨_, exec_scServe s, fun serves => ?_, fun serves => ?_⟩
  · rw [server_eq, if_pos ((firstServerServes_iff s.game).1 serves)]
  · rw [server_eq, if_neg (mt (firstServerServes_iff s.game).2 serves)]

/-- Settles O37: R38 seen from p1, in the words of R195. -/
theorem noStandingWinIsAConditionOnThePair : Obligations.NoStandingWinIsAConditionOnThePair := by
  unfold Obligations.NoStandingWinIsAConditionOnThePair
  intro g
  rw [noStandingWin_iff_of_player .p1]
  simp only [ofPlayer, opponent, if_true]
  split_ifs <;> omega

/-! ## The push -/

theorem pushed_eq_historyAfterPush (h : List GameState) (g : GameState) : pushed h g = historyAfterPush h g := by
  simp only [pushed, historyAfterPush, historyFull, historyCapacity, beq_iff_eq, List.drop_one]

theorem length_historyAfterPush (h : List GameState) (g : GameState) :
    (historyAfterPush h g).length = if h.length = 32 then 32 else h.length + 1 := by
  unfold historyAfterPush
  split <;> simp_all

/-- Settles O25: with room the point is `afterPoint`, and the push is the statement's. -/
theorem pointPushesIncrementsAndSettles : Obligations.PointPushesIncrementsAndSettles := by
  unfold Obligations.PointPushesIncrementsAndSettles
  intro p s room
  rw [exec_scPoint_of_room room, pushed_eq_historyAfterPush]

/-! ## The increment -/

theorem setPlayer_eq_replacing (p : Player) (n : Nat) (f : PerPlayer Nat) : setPlayer f p n = replacing p n f := by
  cases p <;> rfl

theorem incrementedOrFree_of_incremented {x : Counter} {w : Option Nat} {reading : OpenReading} {old new : Nat}
    (h : incremented x w reading old = some new) : incrementedOrFree w old new :=
  ⟨incremented_fits h, fun room => Option.some.inj (h.symm.trans (incremented_of_fits reading room))⟩

theorem not_fitsWidth_iff (w : Option Nat) (n : Nat) : ¬FitsWidth w n ↔ ∃ k, w = some k ∧ 2 ^ k ≤ n := by
  simp [FitsWidth]

theorem incremented_refuse_of_not_fitsWidth {x : Counter} {w : Option Nat} {n : Nat} (full : ¬FitsWidth w (n + 1)) :
    incremented x w .refuse n = none := by
  obtain ⟨k, rfl, bound⟩ := (not_fitsWidth_iff w (n + 1)).1 full
  exact incremented_refuse bound

/-! ## The point -/

/-- R180, R184: what a point leaves of the Game State, the player's new score being n: it stands, or it makes a winner
whose games are incremented. -/
def PointLeaves (c : Config) (p : Player) (n : Nat) (g h : GameState) : Prop :=
  (winnerOf g.mode (replacing p n g.score).p1 (replacing p n g.score).p2 = none ∧
    h = { g with score := replacing p n g.score }) ∨
  ∃ w m, winnerOf g.mode (replacing p n g.score).p1 (replacing p n g.score).p2 = some w ∧
    incrementedOrFree c.gamesW (ofPlayer g.games w) m ∧ h = { g with score := ⟨0, 0⟩, games := replacing w m g.games }

theorem pointAwarded_leaves {c : Config} {p : Player} {g h : GameState} (e : pointAwarded c p g = .ok h) :
    ∃ n, incrementedOrFree c.scoreW (ofPlayer g.score p) n ∧ PointLeaves c p n g h := by
  obtain ⟨n, score, e⟩ := pointAwarded_eq_ok e
  refine ⟨n, incrementedOrFree_of_incremented score, ?_⟩
  rw [setPlayer_eq_replacing] at e
  obtain ⟨noWinner, rfl⟩ | ⟨w, m, wins, games, rfl⟩ := settled_eq_ok e
  · exact .inl ⟨by rwa [winner_eq_winnerOf] at noWinner, rfl⟩
  · refine .inr ⟨w, m, by rwa [winner_eq_winnerOf] at wins, incrementedOrFree_of_incremented games, ?_⟩
    rw [setPlayer_eq_replacing]

theorem ofPlayer_replacing (p q : Player) (n : Nat) (f : PerPlayer Nat) :
    ofPlayer (replacing p n f) q = if q = p then n else ofPlayer f q := by cases p <;> cases q <;> rfl

/-- A counter replaced by a value of its register keeps every counter a value of its register. -/
theorem fitsWidth_replacing {w : Option Nat} {n : Nat} {f : PerPlayer Nat} (p q : Player) (new : FitsWidth w n)
    (old : ∀ q, FitsWidth w (ofPlayer f q)) : FitsWidth w (ofPlayer (replacing p n f) q) := by
  rw [ofPlayer_replacing]
  split
  · exact new
  · exact old q

theorem fitsWidth_zeroAll (w : Option Nat) (p : Player) : FitsWidth w (ofPlayer ⟨0, 0⟩ p) := by
  cases p <;> exact fun k _ => Nat.two_pow_pos k

theorem pointAwarded_fits {c : Config} {p : Player} {g h : GameState} (e : pointAwarded c p g = .ok h)
    (fits : GameFits c g) : GameFits c h := by
  obtain ⟨n, ⟨score, _⟩, ⟨_, rfl⟩ | ⟨w, m, _, ⟨games, _⟩, rfl⟩⟩ := pointAwarded_leaves e
  · exact fun q => ⟨fitsWidth_replacing p q score fun q => (fits q).1, (fits q).2⟩
  · exact fun q => ⟨fitsWidth_zeroAll c.scoreW q, fitsWidth_replacing w q games fun q => (fits q).2⟩

theorem pointAwarded_noStandingWin {c : Config} {p : Player} {g h : GameState} (e : pointAwarded c p g = .ok h) :
    NoStandingWin h := by
  obtain ⟨n, _, ⟨noWinner, rfl⟩ | ⟨w, m, _, _, rfl⟩⟩ := pointAwarded_leaves e
  · exact (noStandingWin_iff_winnerOf _).2 noWinner
  · exact noStandingWin_of_zeroAll rfl

/-- R184: under the hardware's reading no point is refused. -/
theorem pointAwarded_of_hardware {c : Config} (reading : c.overflowReading = .hardware) (p : Player) (g : GameState) :
    ∃ h, pointAwarded c p g = .ok h := by
  cases e : pointAwarded c p g with
  | ok h => exact ⟨h, rfl⟩
  | error r => cases reading.symm.trans (pointAwarded_eq_error e).1

/-- R184, R238: a refused point met a full register, and the refusal names it. -/
theorem pointOverflow_of_error {c : Config} {p : Player} {g : GameState} {r : Refusal}
    (e : pointAwarded c p g = .error r) : c.overflowReading = .refuse ∧ pointOverflow c p g r := by
  obtain ⟨reading, ⟨k, width, full, rfl⟩ | ⟨room, w, k, wins, width, full, rfl⟩⟩ := pointAwarded_eq_error e
  · exact ⟨reading, .inl ⟨(not_fitsWidth_iff _ _).2 ⟨k, width, full⟩, rfl⟩⟩
  · rw [winner_eq_winnerOf, setPlayer_succ_eq_oneMore] at wins
    exact ⟨reading, .inr ⟨room, w, wins, (not_fitsWidth_iff _ _).2 ⟨k, width, full⟩, rfl⟩⟩

/-- And under `refuse` a full register refuses. -/
theorem pointAwarded_of_overflow {c : Config} {p : Player} {g : GameState} {r : Refusal}
    (reading : c.overflowReading = .refuse) (overflow : pointOverflow c p g r) : pointAwarded c p g = .error r := by
  obtain ⟨full, rfl⟩ | ⟨room, w, wins, full, rfl⟩ := overflow
  · rw [pointAwarded, reading, incremented_refuse_of_not_fitsWidth full]
  · have evaluation := winner_eq_winnerOf { g with score := oneMore p g.score }
    simp only [pointAwarded, incremented_of_fits _ room, setPlayer_succ_eq_oneMore, settled, evaluation.trans wins,
      reading, incremented_refuse_of_not_fitsWidth full]

/-! ## SC.POINT -/

theorem exec_scPoint_of_ok {p : Player} {s : State} {g : GameState} (e : pointAwarded s.cfg p s.game = .ok g) :
    exec (.scPoint p) s = .next { s with
      history := historyAfterPush s.history s.game, game := g, resp := some 0x00#8, events := [] } := by
  rw [← pushed_eq_historyAfterPush]
  simp only [exec, execScPoint, awardPoint, begin_cfg, begin_game, e, andThen_next, respond_eq]
  rfl

theorem exec_scPoint_of_error {p : Player} {s : State} {r : Refusal} (e : pointAwarded s.cfg p s.game = .error r) :
    exec (.scPoint p) s = .refused r := by
  simp only [exec, execScPoint, awardPoint, begin_cfg, begin_game, e, andThen_refused]

theorem exec_scPoint_eq_next {p : Player} {s t : State} (h : exec (.scPoint p) s = .next t) :
    ∃ g, pointAwarded s.cfg p s.game = .ok g ∧ t = { s with
      history := historyAfterPush s.history s.game, game := g, resp := some 0x00#8, events := [] } := by
  obtain ⟨g, e, rfl⟩ := execScPoint_eq_next h
  exact ⟨g, e, by rw [pushed_eq_historyAfterPush]⟩

/-- Settles O26: the push is made before the point, and the point is `PointLeaves`. -/
theorem pointPushesThePreCallState : Obligations.PointPushesThePreCallState := by
  unfold Obligations.PointPushesThePreCallState
  intro p s t _ h
  obtain ⟨g, e, rfl⟩ := exec_scPoint_eq_next h
  obtain ⟨mode, firstServe⟩ := pointAwarded_keeps e
  refine ⟨List.getLast?_concat, ?_, mode, firstServe, ?_⟩
  · simp only [topIndex, length_historyAfterPush]
    split_ifs <;> omega
  · obtain ⟨n, score, ⟨noWinner, rfl⟩ | ⟨w, m, wins, _, rfl⟩⟩ := pointAwarded_leaves e
    · exact ⟨n, score, by simp [noWinner]⟩
    · exact ⟨n, score, by simp [wins]⟩

/-- Settles O29: each clause is one of the two overflows of a point. -/
theorem fullRegistersRefuseThePoint : Obligations.FullRegistersRefuseThePoint := by
  unfold Obligations.FullRegistersRefuseThePoint
  intro p s reading
  have full {k n : Nat} {w : Option Nat} (width : w = some k) (last : n = 2 ^ k - 1) : ¬FitsWidth w (n + 1) :=
    (not_fitsWidth_iff w (n + 1)).2 ⟨k, width, by omega⟩
  refine ⟨fun k width last => exec_scPoint_of_error (pointAwarded_of_overflow reading ?_),
    fun k w width room wins last => exec_scPoint_of_error (pointAwarded_of_overflow reading ?_)⟩
  · exact .inl ⟨full width last, rfl⟩
  · exact .inr ⟨room, w, wins, full width last, rfl⟩

/-- Settles O30: no point is refused under the hardware's reading, and every completed one is `PointLeaves`. -/
theorem pointCompletesUnderTheHardwareReading : Obligations.PointCompletesUnderTheHardwareReading := by
  unfold Obligations.PointCompletesUnderTheHardwareReading
  intro p s reading fits
  obtain ⟨g, e⟩ := pointAwarded_of_hardware reading p s.game
  obtain ⟨n, score, leaves⟩ := pointAwarded_leaves e
  refine ⟨_, n, exec_scPoint_of_ok e, rfl, rfl, score, ?_, pointAwarded_fits e fits, pointAwarded_noStandingWin e⟩
  obtain ⟨noWinner, rfl⟩ | ⟨w, m, wins, games, rfl⟩ := leaves
  · rw [noWinner]
  · rw [wins]
    exact ⟨m, games, rfl⟩

/-- Settles O32: the newest snapshot is the Game State before the point. -/
theorem undoTakesBackThePoint : Obligations.UndoTakesBackThePoint := by
  unfold Obligations.UndoTakesBackThePoint
  intro p s t h
  obtain ⟨g, _, rfl⟩ := exec_scPoint_eq_next h
  exact exec_scUndo_append rfl

end Sys2Proof.Proofs

/-!
Undos after points (R191), the history store behind the list (R39 to R41, R62, R63), and the packed Game State (R37).
-/

namespace Sys2Proof.Proofs

open Sys2Proof Sys2Proof.Machine Sys2Proof.Claims

/-! ## Runs -/

theorem runOps_append (xs ys : List Instr) (s : State) : runOps (xs ++ ys) s = andThen (runOps xs s) (runOps ys) := by
  induction xs generalizing s with
  | nil => rfl
  | cons i xs ih =>
    rw [List.cons_append, runOps, runOps, andThen_assoc]
    exact congrArg (andThen (exec i s)) (funext ih)

/-- A run of points keeps as many snapshots as there were and points were made, up to 32. -/
theorem length_history_of_points {ps : List Player} {s t : State} (capacity : s.history.length ≤ 32)
    (run : runOps (ps.map .scPoint) s = .next t) : t.history.length = min 32 (s.history.length + ps.length) := by
  induction ps generalizing s with
  | nil =>
    cases run
    simpa using capacity
  | cons p ps ih =>
    obtain ⟨u, point, rest⟩ := andThen_eq_next run
    obtain ⟨g, _, rfl⟩ := exec_scPoint_eq_next point
    have length := length_historyAfterPush s.history s.game
    rw [ih (by simp only [length]; split <;> omega) rest, length, List.length_cons]
    split <;> omega

/-- The last of a run of points, taken apart. -/
theorem points_take_succ {ps : List Player} {s v : State} {k : Nat} (lt : k < ps.length)
    (run : runOps ((ps.take (k + 1)).map .scPoint) s = .next v) :
    ∃ u, runOps ((ps.take k).map .scPoint) s = .next u ∧ exec (.scPoint ps[k]) u = .next v := by
  rw [List.take_succ_eq_append_getElem lt, List.map_append, runOps_append] at run
  obtain ⟨u, before, last⟩ := andThen_eq_next run
  exact ⟨u, before, by rwa [List.map_singleton, runOps_singleton] at last⟩

/-! ## Undos -/

/-- As many undos as the last snapshots `newer` restore the first of them, and keep the older ones. -/
theorem runOps_undos {t : State} {older newer : List GameState} (h : t.history = older ++ newer) :
    ∃ u, runOps (List.replicate newer.length .scUndo) t = .next u ∧ u.history = older ∧
      u.game = newer.headD t.game := by
  induction newer using List.reverseRecOn generalizing t with
  | nil => exact ⟨t, rfl, by simpa using h, rfl⟩
  | append_singleton newer g ih =>
    rw [← List.append_assoc] at h
    obtain ⟨u, run, kept, restored⟩ :=
      ih (t := { t with game := g, history := older ++ newer, resp := some 0x00#8, events := [] }) rfl
    refine ⟨u, ?_, kept, ?_⟩
    · rw [List.length_append, List.length_singleton, List.replicate_succ,
        runOps_cons_of_next (exec_scUndo_append h), run]
    · rw [restored]
      cases newer <;> rfl

/-- The n newest snapshots after a run of points begin with the Game State n points before its end; those before them
were there at that time. -/
theorem newest_snapshots_of_points {ps : List Player} {s t : State} (capacity : s.history.length ≤ 32)
    (run : runOps (ps.map .scPoint) s = .next t) (n : Nat) (made : n ≤ ps.length) (kept : n ≤ 32) :
    ∃ v lost newer, runOps ((ps.take (ps.length - n)).map .scPoint) s = .next v ∧
      t.history = v.history.drop lost ++ newer ∧ newer.length = n ∧ newer.headD t.game = v.game := by
  induction n with
  | zero => exact ⟨t, 0, [], by simpa using run, by simp, rfl, rfl⟩
  | succ n ih =>
    obtain ⟨v, lost, newer, before, snapshots, length, _⟩ := ih (by omega) (by omega)
    have position : ps.length - n = ps.length - (n + 1) + 1 := by omega
    rw [position] at before
    obtain ⟨u, earlier, point⟩ := points_take_succ (by omega) before
    obtain ⟨g, _, rfl⟩ := exec_scPoint_eq_next point
    have total := length_history_of_points capacity run
    obtain ⟨oldest, pushed⟩ : ∃ oldest, historyAfterPush u.history u.game = u.history.drop oldest ++ [u.game] := by
      unfold historyAfterPush
      split
      · exact ⟨1, rfl⟩
      · exact ⟨0, rfl⟩
    simp only [pushed] at snapshots
    have notLost : lost ≤ (u.history.drop oldest).length := by
      have parts := congrArg List.length snapshots
      simp only [List.length_append, List.length_drop, List.length_singleton] at parts ⊢
      omega
    refine ⟨u, oldest + lost, u.game :: newer, earlier, ?_, by rw [List.length_cons, length], rfl⟩
    rw [snapshots, List.drop_append_of_le_length notLost, List.drop_drop, List.append_assoc, List.singleton_append]

/-- Settles O33: the undos restore the oldest of the newest n snapshots; from an empty history those are all. -/
theorem undosWalkBackThePoints : Obligations.UndosWalkBackThePoints := by
  unfold Obligations.UndosWalkBackThePoints
  intro ps s t n capacity run made kept
  obtain ⟨v, lost, newer, before, snapshots, length, oldest⟩ := newest_snapshots_of_points capacity run n made kept
  obtain ⟨u, undos, older, restored⟩ := runOps_undos snapshots
  rw [length] at undos
  refine ⟨u, v, undos, before, restored.trans oldest, fun empty all => ?_⟩
  have none : u.history = [] := by
    have total := length_history_of_points capacity run
    have parts := congrArg List.length snapshots
    rw [← older, List.length_append, length] at parts
    rw [empty, List.length_nil] at total
    exact List.length_eq_zero_iff.1 (by omega)
  exact ⟨none, exec_scUndo_nil none⟩

/-! ## The store -/

theorem shiftDown_toList (e : Vector GameState 32) : (shiftDown e).toList = e.toList.drop 1 ++ [e[31]] := by
  apply List.ext_getElem
  · simp
  · intro k hk _
    have bound : k < 32 := by simpa using hk
    rw [List.getElem_append]
    by_cases last : k + 1 < 32
    · have inside : k < (e.toList.drop 1).length := by simp; omega
      rw [dif_pos inside]
      simp [shiftDown, last]
    · obtain rfl : k = 31 := by omega
      simp [shiftDown]

theorem storePush_of_full {h : HistoryStore} (full : h.top = 31) (g : GameState) :
    storePush h g = ⟨(shiftDown h.entries).setIfInBounds 31 g, 31⟩ := by
  simp [storePush, full]

theorem storePush_of_room {h : HistoryStore} (room : h.top ≠ 31) (g : GameState) :
    storePush h g = ⟨h.entries.setIfInBounds (h.top + 1).toNat g, h.top + 1⟩ := by
  simp [storePush, room]

theorem shiftDown_getElem? (e : Vector GameState 32) {k : Nat} (lt : k < 31) : (shiftDown e)[k]? = e[k + 1]? := by
  have inside : k < (e.toList.drop 1).length := by simp; omega
  rw [← Vector.getElem?_toList, ← Vector.getElem?_toList, shiftDown_toList, List.getElem?_append_left inside,
    List.getElem?_drop, Nat.add_comm]

/-- R63: on a store that is not empty the newest entry is popped. -/
theorem storePop_of_nonempty {h : HistoryStore} (valid : h.Valid) (nonempty : 0 ≤ h.top) :
    ∃ e, h.entries[h.top.toNat]? = some e ∧ storePop h = some (e, { h with top := h.top - 1 }) := by
  have bound : h.top.toNat < 32 := by omega
  refine ⟨h.entries[h.top.toNat], Vector.getElem?_eq_getElem bound, ?_⟩
  rw [storePop, if_neg (by omega), Vector.getElem?_eq_getElem bound]
  rfl

/-- Settles O38: R62's two cases and R63's two cases, entry by entry. -/
theorem storePushAndPopWriteTheirEntry : Obligations.StorePushAndPopWriteTheirEntry := by
  unfold Obligations.StorePushAndPopWriteTheirEntry
  intro h g valid
  refine ⟨fun full => ?_, fun room => ?_, fun empty => ?_, storePop_of_nonempty valid⟩
  · rw [storePush_of_full full]
    refine ⟨rfl, by simp, fun k lt => ?_⟩
    rw [Vector.getElem?_setIfInBounds_ne (by omega), shiftDown_getElem? _ lt]
  · rw [storePush_of_room room.ne]
    refine ⟨rfl, ?_, fun k le => ?_⟩
    · rw [Vector.getElem?_setIfInBounds_self, if_pos (by omega)]
    · rw [Vector.getElem?_setIfInBounds_ne (by omega)]
  · rw [storePop, if_pos empty]

/-! ## The list and the store -/

theorem length_storeSnapshots {h : HistoryStore} (valid : h.Valid) :
    (storeSnapshots h).length = (h.top + 1).toNat := by
  rw [storeSnapshots, List.length_take, Vector.length_toList]
  omega

/-- R41: a push on the store is the push on its snapshots. -/
theorem storeSnapshots_storePush {h : HistoryStore} (valid : h.Valid) (g : GameState) :
    storeSnapshots (storePush h g) = historyAfterPush (storeSnapshots h) g := by
  have length := length_storeSnapshots valid
  by_cases full : h.top = 31
  · have all : storeSnapshots h = h.entries.toList := by
      rw [storeSnapshots, full]
      exact List.take_of_length_le (by simp)
    rw [historyAfterPush, if_pos (by rw [length, full]; rfl), all, storePush_of_full full]
    simp [storeSnapshots, shiftDown_toList]
  · have bound : (h.top + 1).toNat < h.entries.toList.length := by simp; omega
    have next : (h.top + 1 + 1).toNat = (h.top + 1).toNat + 1 := by omega
    rw [historyAfterPush, if_neg (by rw [length]; omega), storePush_of_room full, storeSnapshots, storeSnapshots]
    simp only [Vector.toList_setIfInBounds, next]
    rw [List.take_succ_eq_append_getElem (by rwa [List.length_set]), List.getElem_set_self,
      List.take_set_of_le le_rfl]

theorem storePush_valid {h : HistoryStore} (valid : h.Valid) (g : GameState) : (storePush h g).Valid := by
  by_cases full : h.top = 31
  · rw [storePush_of_full full]
    exact ⟨by simp, by simp⟩
  · rw [storePush_of_room full]
    exact ⟨by simp only; omega, by simp only; omega⟩

theorem storeSnapshots_of_empty {h : HistoryStore} (empty : h.top = -1) : storeSnapshots h = [] := by
  rw [storeSnapshots, empty]
  rfl

/-- R41: a pop on the store takes the newest snapshot off. -/
theorem storeSnapshots_of_nonempty {h : HistoryStore} (nonempty : 0 ≤ h.top) {e : GameState}
    (newest : h.entries[h.top.toNat]? = some e) :
    storeSnapshots h = storeSnapshots { h with top := h.top - 1 } ++ [e] := by
  have next : (h.top + 1).toNat = h.top.toNat + 1 := by omega
  have before : (h.top - 1 + 1).toNat = h.top.toNat := by omega
  rw [← Vector.getElem?_toList] at newest
  simp only [storeSnapshots, next, before]
  rw [List.take_add_one, newest]
  rfl

/-- R41, SC.UNDO: the pop of the store and the undo on the list. -/
theorem exec_scUndo_refines {h : HistoryStore} (valid : h.Valid) {s t : State} (view : s.history = storeSnapshots h)
    (undo : exec .scUndo s = .next t) :
    (storePop h = none ∧ t.game = s.game ∧ t.history = storeSnapshots h) ∨
      ∃ e h', storePop h = some (e, h') ∧ t.game = e ∧ t.history = storeSnapshots h' ∧ h'.Valid := by
  by_cases empty : h.top = -1
  · rw [exec_scUndo_nil (view.trans (storeSnapshots_of_empty empty))] at undo
    cases undo
    exact .inl ⟨by rw [storePop, if_pos empty], rfl, view⟩
  · have nonempty : 0 ≤ h.top := by omega
    obtain ⟨e, newest, pop⟩ := storePop_of_nonempty valid nonempty
    rw [exec_scUndo_append (view.trans (storeSnapshots_of_nonempty nonempty newest))] at undo
    cases undo
    exact .inr ⟨e, _, pop, rfl, rfl, by simp only; omega, by simp only; omega⟩

/-- Settles O39: push and pop commute with the view of the valid snapshots. -/
theorem historyListRefinesTheStore : Obligations.HistoryListRefinesTheStore := by
  unfold Obligations.HistoryListRefinesTheStore
  intro h g valid
  refine ⟨storePush_valid valid g, storeSnapshots_storePush valid g, fun p s t view point => ?_,
    fun s t view undo => ?_⟩
  · obtain ⟨_, _, rfl⟩ := exec_scPoint_eq_next point
    rw [storeSnapshots_storePush valid, ← view]
  · obtain ⟨none, game, history⟩ | ⟨e, h', some, game, history, valid'⟩ := exec_scUndo_refines valid view undo
    · rw [none]
      exact ⟨game, history⟩
    · rw [some]
      exact ⟨game, history, valid'⟩

/-! ## The packed Game State -/

theorem bitSlice_low {a n : Nat} (lt : a < 2 ^ n) (r : Nat) : bitSlice (a + 2 ^ n * r) 0 n = a := by
  simp [bitSlice, Nat.mod_eq_of_lt lt]

theorem bitSlice_high {a n : Nat} (lt : a < 2 ^ n) (r lo k : Nat) :
    bitSlice (a + 2 ^ n * r) (n + lo) k = bitSlice r lo k := by
  rw [bitSlice, bitSlice, Nat.pow_add, ← Nat.div_div_eq_div_mul, Nat.add_mul_div_left _ _ (Nat.two_pow_pos n),
    Nat.div_eq_of_lt lt, Nat.zero_add]

theorem bitSlice_all {a n : Nat} (lt : a < 2 ^ n) : bitSlice a 0 n = a := by simpa using bitSlice_low lt 0

/-- A field of n bits with a number of w bits above it is a number of n + w bits. -/
theorem field_lt {a n r w : Nat} (ha : a < 2 ^ n) (hr : r < 2 ^ w) : a + 2 ^ n * r < 2 ^ (n + w) :=
  calc a + 2 ^ n * r < 2 ^ n + 2 ^ n * r := by omega
    _ = 2 ^ n * (r + 1) := by rw [Nat.mul_succ, Nat.add_comm]
    _ ≤ 2 ^ n * 2 ^ w := Nat.mul_le_mul_left _ hr
    _ = 2 ^ (n + w) := (Nat.pow_add ..).symm

/-- R37's fields one above the other, the mode lowest. -/
theorem packGame_eq_nested (sw gw : Nat) (g : GameState) : packGame sw gw g =
    modeBit g.mode + 2 ^ 1 * (playerBit g.firstServe + 2 ^ 1 * (g.score.p1 + 2 ^ sw * (g.score.p2 +
      2 ^ sw * (g.games.p1 + 2 ^ gw * g.games.p2)))) := by
  simp only [packGame, two_mul, Nat.pow_add]
  ring

theorem modeBit_lt (m : Mode) : modeBit m < 2 ^ 1 := by cases m <;> decide

theorem playerBit_lt (p : Player) : playerBit p < 2 ^ 1 := by cases p <;> decide

theorem modeOf_modeBit (m : Mode) : (if modeBit m = 0 then Mode.to11 else .to21) = m := by cases m <;> rfl

theorem playerOf_playerBit (p : Player) : (if playerBit p = 0 then Player.p1 else .p2) = p := by cases p <;> rfl

/-- Settles O40: field by field, each below the next and within its bits. -/
theorem unpackInvertsPack : Obligations.UnpackInvertsPack := by
  unfold Obligations.UnpackInvertsPack
  rintro sw gw g ⟨score1, score2, games1, games2⟩
  have mode := modeBit_lt g.mode
  have player := playerBit_lt g.firstServe
  rw [packGame_eq_nested]
  constructor
  · have bound := field_lt mode (field_lt player (field_lt score1 (field_lt score2 (field_lt games1 games2))))
    have width : packedWidth sw gw = 1 + (1 + (sw + (sw + (gw + gw)))) := by rw [packedWidth]; omega
    rwa [width]
  · have score2At : sw + 2 = 1 + (1 + (sw + 0)) := by omega
    have games1At : 2 * sw + 2 = 1 + (1 + (sw + (sw + 0))) := by omega
    have games2At : 2 * sw + gw + 2 = 1 + (1 + (sw + (sw + (gw + 0)))) := by omega
    rw [unpackGame, score2At, games1At, games2At, bitSlice_low mode, bitSlice_high mode _ 0, bitSlice_low player,
      bitSlice_high mode _ (1 + 0), bitSlice_high player, bitSlice_low score1]
    simp only [bitSlice_high mode, bitSlice_high player, bitSlice_high score1, bitSlice_high score2,
      bitSlice_high games1, bitSlice_low score2, bitSlice_low games1, bitSlice_all games2, playerOf_playerBit,
      modeOf_modeBit]

end Sys2Proof.Proofs

/-!
The renderer (R144 to R153): the closed form of a digit and of a whole display, and the custom path.
-/

namespace Sys2Proof.Proofs

open Sys2Proof Sys2Proof.Machine Sys2Proof.Claims

/-! ## One digit in closed form -/

theorem radixValue_le (base : Radix) : radixValue base ≤ 16 := by cases base <;> decide

theorem radixValue_pos (base : Radix) : 0 < radixValue base := by cases base <;> decide

/-- R133: the entry of a digit value below 16. -/
theorem segmentPattern_ofNat (c : Config) {n : Nat} (lt : n < 16) :
    segmentPattern c (BitVec.ofNat 4 n) = c.segTable.toList.getD n 0x00#8 := by
  have entry := segTable_getElem?_eq_segmentPattern c (BitVec.ofNat 4 n)
  rw [BitVec.toNat_ofNat, Nat.mod_eq_of_lt lt] at entry
  rw [List.getD_eq_getElem?_getD, entry, Option.getD_some]

/-- R144: the glyph chosen for the value left at digit i is the closed form's. -/
theorem glyphPattern_chosenGlyph (c : Config) (base : Radix) (dp : Option Nat) (i value : Nat) :
    glyphPattern c (chosenGlyph base dp i (value / radixValue base ^ i)) =
      (closedGlyph (radixValue base) value dp i).elim 0x00#8 fun g => c.segTable.toList.getD g 0x00#8 := by
  have filled : zeroFilled dp i = true ↔ i = 0 ∨ dp.any (i ≤ ·) = true := by simp [zeroFilled]
  simp only [chosenGlyph, closedGlyph, filled]
  split_ifs
  · exact segmentPattern_ofNat c ((Nat.mod_lt _ (radixValue_pos base)).trans_le (radixValue_le base))
  · exact segmentPattern_ofNat c (by decide)
  · rfl

/-- R145, R150. -/
theorem digitPattern_eq_closedPattern (c : Config) (base : Radix) (dp : Option Nat) (i value : Nat) :
    digitPattern c dp i (chosenGlyph base dp i (value / radixValue base ^ i)) =
      closedPattern c (radixValue base) value dp i := by
  rw [closedPattern, ← glyphPattern_chosenGlyph, digitPattern]
  split_ifs
  · rfl
  · rw [BitVec.or_zero]

/-! ## A whole display in closed form -/

theorem renderNumber_events (u : Display) (base : Radix) (value : Nat) (dp : Option Nat) (s : State) :
    (renderNumber u base value dp s).events =
      s.events ++ renderEvents s.cfg u (radixValue base) value dp := by
  rw [renderNumber, renderDigits_events, renderEvents]
  simp only [Nat.zero_add, digitPattern_eq_closedPattern, digitEvents]

theorem renderEvents_eq_nil_iff (c : Config) (u : Display) (base value : Nat) (dp : Option Nat) :
    renderEvents c u base value dp = [] ↔ digitCount c u = 0 := by
  simp only [renderEvents, digitEvents, List.flatMap_eq_nil_iff, List.mem_range]
  constructor
  · intro none
    by_contra some
    exact absurd (none 0 (by omega)) (by simp)
  · intro none k lt
    omega

/-- A render from the beginning of an operation, answered. -/
theorem renderNumber_renderLeaves (u : Display) (base : Radix) (value : Nat) (dp : Option Nat) (s : State) :
    RenderLeaves s { renderNumber u base value dp (begin s) with resp := some 0x00#8 } u (· < digitCount s.cfg u)
      (renderEvents s.cfg u (radixValue base) value dp) where
  rest := by simp [SameEngineAndDebouncers, renderNumber]
  indicators := by simp
  response := rfl
  trace := renderNumber_events u base value dp (begin s)
  others v other := renderDigits_others u base dp other _ 0 value (begin s)
  outputs := renderDigits_sel_length u base dp _ 0 value (begin s)
  off i drawn := by
    simp only [renderNumber, renderDigits_sel, begin_cfg, Nat.zero_le, Nat.zero_add, drawn, and_self, if_true]
    simp
  kept i outside := by
    simp only [renderNumber, renderDigits_sel, begin_cfg, Nat.zero_add, outside, and_false, if_false, begin_sel]
  clear drawn := by
    rw [ne_eq, renderEvents_eq_nil_iff] at drawn
    simp only [renderNumber, renderDigits_seg, begin_cfg, drawn, if_false]
  untouched none := by
    rw [renderEvents_eq_nil_iff] at none
    simp only [renderNumber, renderDigits_seg, begin_cfg, none, if_true, begin_seg]

theorem renderHolds_iff (c : Config) (value : Nat) :
    renderHolds c value ↔ ∀ k, renderWidth c = some k → value < 2 ^ k := by
  simp only [renderWidth_eq_some]
  constructor
  · rintro (unbounded | unbounded | fits) k ⟨score, games, rfl⟩
    · exact absurd unbounded score
    · exact absurd unbounded games
    · exact fits
  · intro fits
    by_cases score : c.scoreW = none
    · exact .inl score
    · by_cases games : c.gamesW = none
      · exact .inr (.inl games)
      · exact .inr (.inr (fits _ ⟨score, games, rfl⟩))

/-- R83, log 18. -/
theorem commandValue_operandOrFree (c : Config) (u : Display) (value : Nat) :
    operandOrFree c value (commandValue c u value) :=
  ⟨(renderHolds_iff c _).2 (commandValue_fits c u value),
    fun holds => commandValue_of_fits u ((renderHolds_iff c value).1 holds)⟩

/-- Settles O18: both renders are the scan of the command's value, in base 10 and in base 16. -/
theorem numericRenderDrawsItsClosedForm : Obligations.NumericRenderDrawsItsClosedForm := by
  unfold Obligations.NumericRenderDrawsItsClosedForm
  intro u value dp s
  have operand := commandValue_operandOrFree s.cfg u value
  exact ⟨⟨_, _, rfl, operand, renderNumber_renderLeaves u .dec _ dp s⟩,
    ⟨_, _, rfl, operand, renderNumber_renderLeaves u .hex _ dp s⟩⟩

/-! ## The custom path -/

section Custom

variable {u : Display} {pattern : Byte} {digit : Nat} {s : State}

theorem exec_rndCustom_of_lt (inside : digit < digitCount s.cfg u) :
    exec (.rndCustom u pattern digit) s = respond 0x00#8 (driveDigit u digit pattern (begin s)) := by
  have passes : customInBounds s.cfg.customBound digit (digitCount s.cfg u) = true := by
    cases s.cfg.customBound <;> simp [customInBounds] <;> omega
  simp only [exec, execRndCustom, passes, inside, if_true]

theorem exec_rndCustom_absorbed (fails : customInBounds s.cfg.customBound digit (digitCount s.cfg u) = false) :
    exec (.rndCustom u pattern digit) s = respond 0x00#8 (begin s) := by
  simp only [exec, execRndCustom, fails, Bool.false_eq_true, if_false]

theorem exec_rndCustom_of_gt (past : digitCount s.cfg u < digit) :
    exec (.rndCustom u pattern digit) s = respond 0x00#8 (begin s) := by
  apply exec_rndCustom_absorbed
  cases s.cfg.customBound <;> simp [customInBounds] <;> omega

theorem exec_rndCustom_boundary_lt (bound : s.cfg.customBound = .lt) :
    exec (.rndCustom u pattern (digitCount s.cfg u)) s = respond 0x00#8 (begin s) := by
  apply exec_rndCustom_absorbed
  simp [customInBounds, bound]

theorem exec_rndCustom_boundary_hardware (bound : s.cfg.customBound = .le)
    (reading : s.cfg.boundaryReading = .hardware) :
    exec (.rndCustom u pattern (digitCount s.cfg u)) s = respond 0x00#8 (driveUnselected u pattern (begin s)) := by
  simp [exec, execRndCustom, customInBounds, bound, reading]

theorem exec_rndCustom_boundary_refuse (bound : s.cfg.customBound = .le)
    (reading : s.cfg.boundaryReading = .refuse) :
    exec (.rndCustom u pattern (digitCount s.cfg u)) s = .refused (.customBoundary u) := by
  simp [exec, execRndCustom, customInBounds, bound, reading]

end Custom

theorem driveDigit_renderLeaves (u : Display) (digit : Nat) (pattern : Byte) (s : State) :
    RenderLeaves s { driveDigit u digit pattern (begin s) with resp := some 0x00#8 } u (· = digit)
      (digitEvents u digit pattern) where
  rest := by simp [SameEngineAndDebouncers]
  indicators := by simp
  response := rfl
  trace := driveDigit_events u digit pattern (begin s)
  others v other := by simp [ofDisplay_setDisplay_ne _ _ other]
  outputs := by simp
  off i drawn := by
    subst drawn
    simp [List.getElem?_set]
  kept i outside := by simp [List.getElem?_set_ne (Ne.symm outside)]
  clear _ := by simp
  untouched none := nomatch none

/-- R153: the segments are driven and cleared, no select output is. -/
theorem driveUnselected_renderLeaves (u : Display) (pattern : Byte) (s : State) :
    RenderLeaves s { driveUnselected u pattern (begin s) with resp := some 0x00#8 } u (fun _ => False)
      [.seg u pattern, .hold u, .seg u 0x00#8] where
  rest := ⟨rfl, rfl, rfl, rfl, rfl⟩
  indicators := rfl
  response := rfl
  trace := rfl
  others v other := by simp [driveUnselected, emit, drive, ofDisplay_setDisplay_ne _ _ other]
  outputs := rfl
  off _ drawn := drawn.elim
  kept _ _ := rfl
  clear _ := by simp [driveUnselected, emit, drive]
  untouched none := nomatch none

/-- Settles O19: the three positions of the digit, the boundary by bound and reading. -/
theorem customRenderChecksItsDigit : Obligations.CustomRenderChecksItsDigit := by
  unfold Obligations.CustomRenderChecksItsDigit
  intro u pattern digit s
  refine ⟨fun inside => ⟨_, exec_rndCustom_of_lt inside, driveDigit_renderLeaves u digit pattern s⟩,
    exec_rndCustom_of_gt, ?_⟩
  rintro rfl
  exact ⟨exec_rndCustom_boundary_lt,
    fun bound reading => ⟨_, exec_rndCustom_boundary_hardware bound reading, driveUnselected_renderLeaves u pattern s⟩,
    exec_rndCustom_boundary_refuse⟩

/-! ## A refresh -/

theorem showDisplay_events (s : State) (u : Display) :
    (showDisplay s u).events = s.events ++ renderEvents s.cfg u 10 (shownValue s.game u) none :=
  renderNumber_events u .dec _ none s

theorem foldl_showDisplay_events (us : List Display) (s : State) :
    (us.foldl showDisplay s).events =
      s.events ++ us.flatMap fun u => renderEvents s.cfg u 10 (shownValue s.game u) none := by
  induction us generalizing s with
  | nil => simp
  | cons u us ih =>
    rw [List.foldl_cons, ih, showDisplay_events, showDisplay_cfg, showDisplay_game, List.flatMap_cons,
      List.append_assoc]

theorem refreshOutputs_events (s : State) : (refreshOutputs s).events =
    s.events ++ .ind (server s.game == .p1) (server s.game == .p2) ::
      s.cfg.refreshOrder.flatMap fun u => renderEvents s.cfg u 10 (shownValue s.game u) none := by
  rw [refreshOutputs, foldl_showDisplay_events]
  simp [showServer]

/-- On dark displays a render leaves the outputs as they were. -/
theorem renderNumber_dark (u : Display) (base : Radix) (value : Nat) (dp : Option Nat) {s : State}
    (dark : OutputsDark s) :
    (renderNumber u base value dp s).sel = s.sel ∧ (renderNumber u base value dp s).seg = s.seg := by
  obtain ⟨sel, seg⟩ := dark u
  refine renderDigits_dark u base dp _ 0 value s ?_ seg
  rw [sel, List.length_replicate]

theorem outputsDark_congr {s t : State} (cfg : t.cfg = s.cfg) (sel : t.sel = s.sel) (seg : t.seg = s.seg)
    (dark : OutputsDark s) : OutputsDark t := by
  unfold OutputsDark
  rw [cfg, sel, seg]
  exact dark

theorem foldl_showDisplay_dark (us : List Display) {s : State} (dark : OutputsDark s) :
    (us.foldl showDisplay s).sel = s.sel ∧ (us.foldl showDisplay s).seg = s.seg := by
  induction us generalizing s with
  | nil => exact ⟨rfl, rfl⟩
  | cons u us ih =>
    obtain ⟨sel, seg⟩ := renderNumber_dark u .dec (shownValue s.game u) none dark
    obtain ⟨sel', seg'⟩ := ih (outputsDark_congr (showDisplay_cfg s u) sel seg dark)
    exact ⟨sel'.trans sel, seg'.trans seg⟩

theorem refreshOutputs_dark {s : State} (dark : OutputsDark s) :
    (refreshOutputs s).sel = s.sel ∧ (refreshOutputs s).seg = s.seg :=
  foldl_showDisplay_dark s.cfg.refreshOrder (s := showServer s) dark

/-- Settles O42: REFRESH is the indicators and four renders, each of the register R211 names. -/
theorem refreshShowsTheGameState : Obligations.RefreshShowsTheGameState := by
  unfold Obligations.RefreshShowsTheGameState
  intro s
  refine ⟨_, server s.game, rfl, by simp [SameEngineAndDebouncers], rfl, exec_scServe_names_server s, by simp,
    refreshOutputs_events (begin s), fun dark => refreshOutputs_dark (s := begin s) dark⟩

end Sys2Proof.Proofs

/-!
The events of every operation: at each moment at most one digit is enabled (R155), the outputs at the end are what the
events wrote (R12), and the holds are counted (R272).
-/

namespace Sys2Proof.Proofs

open Sys2Proof Sys2Proof.Machine Sys2Proof.Claims

/-! ## What SC.UNDO, RND.CUSTOM and ITER can do -/

theorem undoPoint_keeps (s : State) :
    undoPoint s = { s with game := (undoPoint s).game, history := (undoPoint s).history } :=
  handleButton_keeps (b := .undo) rfl

theorem exec_scUndo_frame (s : State) : exec .scUndo s = .next { s with
    game := (undoPoint (begin s)).game, history := (undoPoint (begin s)).history, resp := some 0x00#8,
    events := [] } := by
  rw [exec, execScUndo, undoPoint_keeps]
  rfl

/-- R152, R153: the four ends of RND.CUSTOM. -/
theorem exec_rndCustom_cases (u : Display) (pattern : Byte) (digit : Nat) (s : State) :
    (digit < digitCount s.cfg u ∧
      exec (.rndCustom u pattern digit) s = respond 0x00#8 (driveDigit u digit pattern (begin s))) ∨
    (customInBounds s.cfg.customBound digit (digitCount s.cfg u) = false ∧
      exec (.rndCustom u pattern digit) s = respond 0x00#8 (begin s)) ∨
    (digit = digitCount s.cfg u ∧ s.cfg.customBound = .le ∧
      exec (.rndCustom u pattern digit) s = respond 0x00#8 (driveUnselected u pattern (begin s))) ∨
    (digit = digitCount s.cfg u ∧ s.cfg.customBound = .le ∧ s.cfg.boundaryReading = .refuse ∧
      exec (.rndCustom u pattern digit) s = .refused (.customBoundary u)) := by
  obtain inside | rfl | past := Nat.lt_trichotomy digit (digitCount s.cfg u)
  · exact .inl ⟨inside, exec_rndCustom_of_lt inside⟩
  · cases bound : s.cfg.customBound with
    | lt => exact .inr (.inl ⟨by simp [customInBounds], exec_rndCustom_boundary_lt bound⟩)
    | le =>
      cases reading : s.cfg.boundaryReading with
      | hardware => exact .inr (.inr (.inl ⟨rfl, rfl, exec_rndCustom_boundary_hardware bound reading⟩))
      | refuse => exact .inr (.inr (.inr ⟨rfl, rfl, rfl, exec_rndCustom_boundary_refuse bound reading⟩))
  · refine .inr (.inl ⟨?_, exec_rndCustom_of_gt past⟩)
    cases s.cfg.customBound <;> simp [customInBounds] <;> omega

theorem exec_rndCustom_eq_next {u : Display} {pattern : Byte} {digit : Nat} {s t : State}
    (h : exec (.rndCustom u pattern digit) s = .next t) :
    (digit < digitCount s.cfg u ∧ t = { driveDigit u digit pattern (begin s) with resp := some 0x00#8 }) ∨
    (customInBounds s.cfg.customBound digit (digitCount s.cfg u) = false ∧
      t = { begin s with resp := some 0x00#8 }) ∨
    (digit = digitCount s.cfg u ∧ s.cfg.customBound = .le ∧
      t = { driveUnselected u pattern (begin s) with resp := some 0x00#8 }) := by
  obtain ⟨inside, e⟩ | ⟨fails, e⟩ | ⟨boundary, bound, e⟩ | ⟨_, _, _, e⟩ :=
    exec_rndCustom_cases u pattern digit s <;> rw [e] at h <;> cases h
  · exact .inl ⟨inside, rfl⟩
  · exact .inr (.inl ⟨fails, rfl⟩)
  · exact .inr (.inr ⟨boundary, bound, rfl⟩)

/-- The state ITER refreshes: the windows sampled, the Game State and history as the events left them. -/
def iterated (raw : BitVec 5) (s : State) (game : GameState) (history : List GameState) : State :=
  { begin s with deb := (sampleAll (rawSamples raw) (begin s)).1.deb, game := game, history := history }

theorem exec_iter_frame {raw : BitVec 5} {s t : State} (h : exec (.iter raw) s = .next t) :
    ∃ game history v, t = { refreshOutputs (iterated raw s game history) with resp := some v } := by
  obtain ⟨u, events, rfl⟩ := execIter_eq_next h
  exact ⟨u.game, u.history, _, by rw [handleAll_keeps events]; rfl⟩

/-- R43: no operation writes the configuration or the host's inputs. -/
theorem exec_keeps_cfg_input {i : Instr} {s t : State} (h : exec i s = .next t) :
    t.cfg = s.cfg ∧ t.input = s.input := by
  cases i with
  | rndDec u value dp =>
    cases h
    exact ⟨renderDigits_cfg u .dec dp _ 0 _ (begin s), renderDigits_input u .dec dp _ 0 _ (begin s)⟩
  | rndHex u value dp =>
    cases h
    exact ⟨renderDigits_cfg u .hex dp _ 0 _ (begin s), renderDigits_input u .hex dp _ 0 _ (begin s)⟩
  | rndCustom u pattern digit =>
    obtain ⟨_, rfl⟩ | ⟨_, rfl⟩ | ⟨_, _, rfl⟩ := exec_rndCustom_eq_next h
    · exact ⟨driveDigit_cfg u digit pattern (begin s), driveDigit_input u digit pattern (begin s)⟩
    · exact ⟨rfl, rfl⟩
    · exact ⟨rfl, rfl⟩
  | scPoint p =>
    obtain ⟨_, _, rfl⟩ := exec_scPoint_eq_next h
    exact ⟨rfl, rfl⟩
  | scUndo =>
    rw [exec_scUndo_frame] at h
    cases h
    exact ⟨rfl, rfl⟩
  | scSetMode m =>
    rw [exec_scSetMode] at h
    cases h
    exact ⟨rfl, rfl⟩
  | scSetFs p =>
    rw [exec_scSetFs] at h
    cases h
    exact ⟨rfl, rfl⟩
  | iter raw =>
    obtain ⟨game, history, v, rfl⟩ := exec_iter_frame h
    exact ⟨refreshOutputs_cfg _, refreshOutputs_input _⟩
  | refresh =>
    cases h
    exact ⟨refreshOutputs_cfg (begin s), refreshOutputs_input (begin s)⟩
  | _ =>
    cases h
    exact ⟨rfl, rfl⟩

/-! ## Scans: digits one at a time -/

/-- R146: an event list in which every `SEL` belongs to the five events of one digit. -/
inductive ScanTrace : List Event → Prop
  | nil : ScanTrace []
  | digit {es : List Event} (u : Display) (i : Nat) (pat : Byte) (before : ScanTrace es) :
      ScanTrace (es ++ digitEvents u i pat)
  | quiet {es : List Event} {e : Event} (noSelect : ∀ u i v, e ≠ .sel u i v) (before : ScanTrace es) :
      ScanTrace (es ++ [e])

theorem replayed_append (es es' : List Event) (s : State) : replayed (es ++ es') s = replayed es' (replayed es s) :=
  List.foldl_append

/-- Replacing the select outputs of one display. -/
theorem enabledDigits_setDisplay (s : State) (u : Display) (l : List Bool) :
    enabledDigits { s with sel := setDisplay s.sel u l } + (ofDisplay s.sel u).count true =
      enabledDigits s + l.count true := by
  cases u <;> simp only [enabledDigits, setDisplay, ofDisplay] <;> omega

theorem count_set_true_le (l : List Bool) (i : Nat) : (l.set i true).count true ≤ l.count true + 1 := by
  by_cases inside : i < l.length
  · rw [List.count_set inside]
    simp
  · rw [List.set_eq_of_length_le (by omega)]
    omega

theorem count_set_false_le (l : List Bool) (i : Nat) : (l.set i false).count true ≤ l.count true := by
  by_cases inside : i < l.length
  · rw [List.count_set inside]
    simp
  · rw [List.set_eq_of_length_le (by omega)]

theorem enabledDigits_quiet {e : Event} (noSelect : ∀ u i v, e ≠ .sel u i v) (s : State) :
    enabledDigits (drive e s) = enabledDigits s := by
  cases e with
  | sel u i v => exact absurd rfl (noSelect u i v)
  | _ => rfl

/-- One digit on, none on before. -/
theorem enabledDigits_select {s : State} (none : enabledDigits s = 0) (u : Display) (i : Nat) :
    enabledDigits (drive (.sel u i true) s) ≤ 1 := by
  have set := enabledDigits_setDisplay s u ((ofDisplay s.sel u).set i true)
  have count := count_set_true_le (ofDisplay s.sel u) i
  have same : drive (.sel u i true) s = { s with sel := setDisplay s.sel u ((ofDisplay s.sel u).set i true) } := rfl
  rw [same]
  omega

/-- And off again. -/
theorem enabledDigits_deselect {s : State} (none : enabledDigits s = 0) (u : Display) (i : Nat) :
    enabledDigits (drive (.sel u i false) (drive (.sel u i true) s)) = 0 := by
  have set := enabledDigits_setDisplay s u ((ofDisplay s.sel u).set i false)
  have count := count_set_false_le (ofDisplay s.sel u) i
  have same : drive (.sel u i false) (drive (.sel u i true) s) =
      { s with sel := setDisplay s.sel u ((ofDisplay s.sel u).set i false) } := by simp [drive]
  rw [same]
  omega

/-- R146: while one digit is drawn no other is enabled. -/
theorem enabledDigits_digitEvents {s : State} (none : enabledDigits s = 0) (u : Display) (i : Nat) (pat : Byte) :
    (∀ k, enabledDigits (replayed ((digitEvents u i pat).take k) s) ≤ 1) ∧
      enabledDigits (replayed (digitEvents u i pat) s) = 0 := by
  have on := enabledDigits_select none u i
  have off := enabledDigits_deselect none u i
  refine ⟨fun k => ?_, off⟩
  match k with
  | 0 => exact none.trans_le (Nat.zero_le 1)
  | 1 | 2 | 3 => exact on
  | 4 => exact off.trans_le (Nat.zero_le 1)
  | _ + 5 =>
    rw [List.take_of_length_le (by simp [digitEvents])]
    exact off.trans_le (Nat.zero_le 1)

/-- A bound at every moment of a list and at every moment of what follows it. -/
theorem enabledDigits_take_append {es es' : List Event} {s : State}
    (first : ∀ k, enabledDigits (replayed (es.take k) s) ≤ 1)
    (second : ∀ k, enabledDigits (replayed (es'.take k) (replayed es s)) ≤ 1) (k : Nat) :
    enabledDigits (replayed ((es ++ es').take k) s) ≤ 1 := by
  rw [List.take_append]
  by_cases inside : k ≤ es.length
  · rw [Nat.sub_eq_zero_of_le inside, List.take_zero, List.append_nil]
    exact first k
  · rw [List.take_of_length_le (by omega), replayed_append]
    exact second _

/-- R155: along a scan at most one digit is enabled, and none at its end. -/
theorem ScanTrace.enabledDigits_le_one {es : List Event} (scan : ScanTrace es) {s : State}
    (none : enabledDigits s = 0) :
    (∀ k, enabledDigits (replayed (es.take k) s) ≤ 1) ∧ enabledDigits (replayed es s) = 0 := by
  induction scan with
  | nil =>
    refine ⟨fun k => ?_, none⟩
    rw [List.take_nil]
    exact none.trans_le (Nat.zero_le 1)
  | digit u i pat _ ih =>
    obtain ⟨first, clear⟩ := ih
    obtain ⟨second, off⟩ := enabledDigits_digitEvents clear u i pat
    exact ⟨enabledDigits_take_append first second, by rw [replayed_append, off]⟩
  | @quiet es e noSelect _ ih =>
    obtain ⟨first, clear⟩ := ih
    have still : enabledDigits (drive e (replayed es s)) = 0 := (enabledDigits_quiet noSelect _).trans clear
    refine ⟨enabledDigits_take_append first fun k => ?_, by rw [replayed_append]; exact still⟩
    match k with
    | 0 => exact clear.trans_le (Nat.zero_le 1)
    | _ + 1 =>
      rw [List.take_of_length_le (by simp)]
      exact still.trans_le (Nat.zero_le 1)

/-! ## The outputs are what the events wrote -/

/-- The select, segment and indicator outputs of two states are the same. -/
def SameOutputs (s t : State) : Prop := s.sel = t.sel ∧ s.seg = t.seg ∧ s.ind = t.ind

theorem sameOutputs_drive (e : Event) {s t : State} (h : SameOutputs s t) : SameOutputs (drive e s) (drive e t) := by
  obtain ⟨sel, seg, ind⟩ := h
  cases e <;> simp [SameOutputs, sel, seg, ind]

/-- What an operation from s has done by t: its events are a scan, and replaying them gives its outputs. -/
structure Draws (s t : State) : Prop where
  scan : ScanTrace t.events
  outputs : SameOutputs (replayed t.events s) t

namespace Draws

variable {s t : State}

theorem silent (events : t.events = []) (outputs : SameOutputs s t) : Draws s t where
  scan := events ▸ .nil
  outputs := by rw [events]; exact outputs

theorem afterBegin (s : State) : Draws s (begin s) := silent rfl ⟨rfl, rfl, rfl⟩

/-- The answer, and anything else that is neither an output nor an event. -/
theorem congr {t' : State} (h : Draws s t) (events : t'.events = t.events) (outputs : SameOutputs t t') :
    Draws s t' where
  scan := events ▸ h.scan
  outputs := by
    obtain ⟨sel, seg, ind⟩ := h.outputs
    obtain ⟨sel', seg', ind'⟩ := outputs
    rw [events]
    exact ⟨sel.trans sel', seg.trans seg', ind.trans ind'⟩

theorem outputs_emit (h : SameOutputs (replayed t.events s) t) (e : Event) :
    SameOutputs (replayed (emit e t).events s) (emit e t) := by
  rw [emit_events, replayed_append]
  exact sameOutputs_drive e h

theorem emitQuiet (h : Draws s t) (e : Event) (noSelect : ∀ u i v, e ≠ .sel u i v) : Draws s (emit e t) where
  scan := .quiet noSelect h.scan
  outputs := outputs_emit h.outputs e

theorem driveDigit (h : Draws s t) (u : Display) (i : Nat) (pat : Byte) : Draws s (driveDigit u i pat t) where
  scan := by
    rw [driveDigit_events]
    exact .digit u i pat h.scan
  outputs := outputs_emit (outputs_emit (outputs_emit (outputs_emit (outputs_emit h.outputs _) _) _) _) _

theorem driveUnselected (h : Draws s t) (u : Display) (pat : Byte) : Draws s (driveUnselected u pat t) :=
  ((h.emitQuiet (.seg u pat) fun _ _ _ => nofun).emitQuiet (.hold u) fun _ _ _ => nofun).emitQuiet (.seg u 0x00#8)
    fun _ _ _ => nofun

theorem renderDigits (h : Draws s t) (u : Display) (base : Radix) (dp : Option Nat) (n i v : Nat) :
    Draws s (renderDigits u base dp n i v t) := by
  induction n generalizing i v t with
  | zero => exact h
  | succ n ih => exact ih (h.driveDigit u i _) _ _

theorem showDisplays (h : Draws s t) (us : List Display) : Draws s (us.foldl showDisplay t) := by
  induction us generalizing t with
  | nil => exact h
  | cons u us ih => exact ih (h.renderDigits u .dec none _ 0 _)

theorem refreshOutputs (h : Draws s t) : Draws s (refreshOutputs t) :=
  (h.emitQuiet (.ind _ _) fun _ _ _ => nofun).showDisplays t.cfg.refreshOrder

end Draws

/-- Every operation draws by scans, and leaves the outputs its events wrote. -/
theorem exec_draws {i : Instr} {s t : State} (h : exec i s = .next t) : Draws s t := by
  cases i with
  | rndDec u value dp =>
    cases h
    exact ((Draws.afterBegin s).renderDigits u .dec dp _ 0 _).congr rfl ⟨rfl, rfl, rfl⟩
  | rndHex u value dp =>
    cases h
    exact ((Draws.afterBegin s).renderDigits u .hex dp _ 0 _).congr rfl ⟨rfl, rfl, rfl⟩
  | rndCustom u pattern digit =>
    obtain ⟨_, rfl⟩ | ⟨_, rfl⟩ | ⟨_, _, rfl⟩ := exec_rndCustom_eq_next h
    · exact ((Draws.afterBegin s).driveDigit u digit pattern).congr rfl ⟨rfl, rfl, rfl⟩
    · exact (Draws.afterBegin s).congr rfl ⟨rfl, rfl, rfl⟩
    · exact ((Draws.afterBegin s).driveUnselected u pattern).congr rfl ⟨rfl, rfl, rfl⟩
  | scPoint p =>
    obtain ⟨_, _, rfl⟩ := exec_scPoint_eq_next h
    exact .silent rfl ⟨rfl, rfl, rfl⟩
  | scUndo =>
    rw [exec_scUndo_frame] at h
    cases h
    exact .silent rfl ⟨rfl, rfl, rfl⟩
  | scSetMode m =>
    rw [exec_scSetMode] at h
    cases h
    exact .silent rfl ⟨rfl, rfl, rfl⟩
  | scSetFs p =>
    rw [exec_scSetFs] at h
    cases h
    exact .silent rfl ⟨rfl, rfl, rfl⟩
  | iter raw =>
    obtain ⟨game, history, v, rfl⟩ := exec_iter_frame h
    have sampled : Draws s (iterated raw s game history) := .silent rfl ⟨rfl, rfl, rfl⟩
    exact sampled.refreshOutputs.congr rfl ⟨rfl, rfl, rfl⟩
  | refresh =>
    cases h
    exact (Draws.afterBegin s).refreshOutputs.congr rfl ⟨rfl, rfl, rfl⟩
  | _ =>
    cases h
    exact .silent rfl ⟨rfl, rfl, rfl⟩

theorem enabledDigits_of_dark {s : State} (dark : OutputsDark s) : enabledDigits s = 0 := by
  have off (u : Display) : (ofDisplay s.sel u).count true = 0 := by
    rw [(dark u).1]
    simp [List.count_replicate]
  have s1 := off .s1
  have s2 := off .s2
  have g1 := off .g1
  have g2 := off .g2
  simp only [ofDisplay] at s1 s2 g1 g2
  rw [enabledDigits, s1, s2, g1, g2]

/-- Settles O20: the events are a scan from dark outputs. -/
theorem atMostOneDigitIsEverEnabled : Obligations.AtMostOneDigitIsEverEnabled := by
  unfold Obligations.AtMostOneDigitIsEverEnabled
  intro i s t dark h
  obtain ⟨scan, outputs⟩ := exec_draws h
  exact ⟨(scan.enabledDigits_le_one (enabledDigits_of_dark dark)).1, outputs⟩

/-! ## The holds -/

/-- R272: a render holds once for each digit. -/
theorem holds_renderEvents (c : Config) (u : Display) (base value : Nat) (dp : Option Nat) :
    ((renderEvents c u base value dp).filter isHold).length = digitCount c u := by
  simp [renderEvents, digitEvents, isHold, List.filter_flatMap, List.length_flatMap, List.filter_cons]

theorem holds_renders (c : Config) (us : List Display) (shown : Display → Nat) :
    ((us.flatMap fun u => renderEvents c u 10 (shown u) none).filter isHold).length = (us.map (digitCount c)).sum := by
  rw [List.filter_flatMap, List.length_flatMap]
  simp only [holds_renderEvents]

theorem holds_refreshOutputs {s : State} (none : s.events = []) :
    ((refreshOutputs s).events.filter isHold).length = (s.cfg.refreshOrder.map (digitCount s.cfg)).sum := by
  rw [refreshOutputs_events, none, List.nil_append, List.filter_cons_of_neg (by simp [isHold]), holds_renders]

theorem holdsOf_rndCustom (c : Config) (u : Display) (pattern : Byte) (digit : Nat) :
    holdsOf c (.rndCustom u pattern digit) =
      if customInBounds c.customBound digit (digitCount c u) = true then 1 else 0 := by
  rw [holdsOf]
  cases c.customBound <;> simp [customInBounds]

/-- R272: the holds of every operation that completes. -/
theorem exec_holds {i : Instr} {s t : State} (h : exec i s = .next t) :
    (t.events.filter isHold).length = holdsOf s.cfg i := by
  cases i with
  | rndDec u value dp =>
    cases h
    exact (congrArg (fun es => (es.filter isHold).length) (renderNumber_events u .dec _ dp (begin s))).trans
      (holds_renderEvents s.cfg u 10 _ dp)
  | rndHex u value dp =>
    cases h
    exact (congrArg (fun es => (es.filter isHold).length) (renderNumber_events u .hex _ dp (begin s))).trans
      (holds_renderEvents s.cfg u 16 _ dp)
  | rndCustom u pattern digit =>
    rw [holdsOf_rndCustom]
    obtain ⟨inside, rfl⟩ | ⟨fails, rfl⟩ | ⟨rfl, bound, rfl⟩ := exec_rndCustom_eq_next h
    · have passes : customInBounds s.cfg.customBound digit (digitCount s.cfg u) = true := by
        cases s.cfg.customBound <;> simp [customInBounds] <;> omega
      rw [if_pos passes]
      exact congrArg (fun es => (es.filter isHold).length) (driveDigit_events u digit pattern (begin s))
    · rw [fails]
      rfl
    · simp only [bound, customInBounds, le_refl, decide_true, if_true]
      rfl
  | scPoint p =>
    obtain ⟨_, _, rfl⟩ := exec_scPoint_eq_next h
    rfl
  | scUndo =>
    rw [exec_scUndo_frame] at h
    cases h
    rfl
  | scSetMode m =>
    rw [exec_scSetMode] at h
    cases h
    rfl
  | scSetFs p =>
    rw [exec_scSetFs] at h
    cases h
    rfl
  | iter raw =>
    obtain ⟨game, history, v, rfl⟩ := exec_iter_frame h
    exact holds_refreshOutputs (s := iterated raw s game history) rfl
  | refresh =>
    cases h
    exact holds_refreshOutputs (s := begin s) rfl
  | _ =>
    cases h
    rfl

/-- Settles O21: the holds are counted event by event; the order of the displays does not change their sum. -/
theorem durationsCountTheHolds : Obligations.DurationsCountTheHolds := by
  unfold Obligations.DurationsCountTheHolds
  refine ⟨fun i s t h => ?_, fun c raw digits order => ?_⟩
  · rw [holdTime, exec_holds h, (exec_keeps_cfg_input h).1]
  · have six : (c.refreshOrder.map (digitCount c)).sum = 6 := by
      rw [(order.map _).sum_nat]
      simp [digitCount, digits, ofDisplay]
    exact ⟨six, six⟩

end Sys2Proof.Proofs

/-!
The iteration (R212 to R216): ITER against the program of its primitives, its completion, and its single event under
`first_only`.
-/

namespace Sys2Proof.Proofs

open Sys2Proof Sys2Proof.Machine Sys2Proof.Claims

/-! ## The samples of an iteration -/

/-- R212: which buttons trigger, sampled from s. -/
def iterTriggers (raw : BitVec 5) (s : State) : PerButton Bool :=
  triggers s.cfg (sampleAll (rawSamples raw) (begin s)).2

theorem ofButton_rawSamples (raw : BitVec 5) (b : Button) :
    ofButton (rawSamples raw) b = raw.getLsbD (buttonIndex b) := by cases b <;> rfl

theorem ofButton_iterTriggers (raw : BitVec 5) (s : State) (b : Button) :
    ofButton (iterTriggers raw s) b = ((sampledWindow s b (ofButton (rawSamples raw) b)).2 == actingEdge s.cfg) := by
  cases b <;> rfl

theorem trigger_response_iff (c : Config) (e : Edge) :
    (some (edgeResponse e) == some (triggerResponse c)) = (e == actingEdge c) := by
  rw [triggerResponse, actingEdge]
  cases c.triggerEdge <;> cases e <;> decide

/-- R212: the five samples leave what `sampleAll` leaves, but for the last response. -/
theorem runOps_sampleOps (raw : BitVec 5) (s : State) :
    ∃ a, runOps (sampleOps raw) s = .next a ∧ begin a = (sampleAll (rawSamples raw) (begin s)).1 := ⟨_, rfl, rfl⟩

/-- R117: each of the five answers as if sampled alone. -/
theorem responsesOf_sampleOps (raw : BitVec 5) (s : State) : responsesOf (sampleOps raw) s =
    buttonsInOrder.map fun b => some (edgeResponse (sampledWindow s b (ofButton (rawSamples raw) b)).2) := rfl

/-- The entries of a list whose image is selected. -/
theorem filter_zip_map {α β : Type} (f : α → β) (p : β → Bool) (l : List α) :
    ((l.zip (l.map f)).filter fun x => p x.2).map Prod.fst = l.filter fun x => p (f x) := by
  induction l with
  | nil => rfl
  | cons x l ih =>
    rw [List.map_cons, List.zip_cons_cons, List.filter_cons, List.filter_cons, ← ih]
    split <;> rfl

theorem triggered_eq (raw : BitVec 5) (s : State) :
    triggered raw s = buttonsInOrder.filter (ofButton (iterTriggers raw s)) := by
  have selected := filter_zip_map
    (fun b => some (edgeResponse (sampledWindow s b (ofButton (rawSamples raw) b)).2))
    (· == some (triggerResponse s.cfg)) buttonsInOrder
  simp only [trigger_response_iff, ← ofButton_iterTriggers] at selected
  rw [triggered, responsesOf_sampleOps]
  exact selected

theorem applied_eq (raw : BitVec 5) (s : State) :
    applied raw s = handledButtons s.cfg.eventPolicy (iterTriggers raw s) := by
  cases policy : s.cfg.eventPolicy with
  | firstOnly => simp only [applied, handledButtons, policy, triggered_eq]
  | allInOrder => simp only [applied, handledButtons, policy, triggered_eq]

/-- A sum over the selected entries of a list, as a sum over all of them. -/
theorem sum_map_filter_eq {α : Type} (p : α → Bool) (f : α → Nat) (l : List α) :
    ((l.filter p).map f).sum = (l.map fun x => (p x).toNat * f x).sum := by
  induction l with
  | nil => rfl
  | cons x l ih => cases selected : p x <;> simp [selected, ih]

/-- R85: the response of ITER as a number. -/
theorem iterResponse_eq (done : List Button) (trig : PerButton Bool) :
    iterResponse done.getLast? trig =
      BitVec.ofNat 8 (iterWord (buttonsInOrder.filter (ofButton trig)) done) := by
  have index : (done.getLast?.map buttonIndex).getD 7 = done.getLast?.elim 7 buttonIndex := by
    cases done.getLast? <;> rfl
  have bits : ((buttonsInOrder.filter (ofButton trig)).map fun b => 2 ^ buttonIndex b).sum =
      trig.mode.toNat + trig.fs.toNat * 2 + trig.undo.toNat * 4 + trig.p1.toNat * 8 + trig.p2.toNat * 16 := by
    rw [sum_map_filter_eq]
    simp [buttonsInOrder, buttonIndex, ofButton, Nat.add_assoc]
  apply BitVec.eq_of_toNat_eq
  rw [iterWord, bits]
  simp only [iterResponse, index, toNat_append_add, BitVec.toNat_ofNat, BitVec.toNat_ofBool]
  have := trig.mode.toNat_lt
  have := trig.fs.toNat_lt
  have := trig.undo.toNat_lt
  have := trig.p1.toNat_lt
  have := trig.p2.toNat_lt
  omega

/-! ## The events of an iteration -/

/-- R213: the button's engine operation is an operation of its own from its beginning to its answer. -/
theorem exec_eventOp (b : Button) (s : State) :
    exec (eventOp b s) s = andThen (handleButton b (begin s)) (respond 0x00#8) := by
  cases b with
  | mode =>
    have other : (if s.game.mode = .to11 then Mode.to21 else .to11) = otherMode s.game.mode := by
      cases s.game.mode <;> rfl
    rw [eventOp, other]
    rfl
  | fs =>
    rw [eventOp, ← otherPlayer_eq_opponent]
    rfl
  | undo => rfl
  | p1 => rfl
  | p2 => rfl

/-- The events as operations of their own leave what ITER's events leave, but for the last response. -/
theorem runEvents_begin (bs : List Button) (s : State) :
    andThen (runEvents bs s) (fun t => .next (begin t)) = handleAll bs (begin s) := by
  induction bs generalizing s with
  | nil => rfl
  | cons b bs ih =>
    rw [runEvents, handleAll, exec_eventOp, andThen_assoc, andThen_assoc]
    cases handled : handleButton b (begin s) with
    | next t =>
      have fresh : begin { t with resp := some 0x00#8 } = t := by rw [handleButton_keeps handled]; rfl
      rw [andThen_next, andThen_next, respond_eq, andThen_next, ih, fresh]
    | fault f => cases f
    | refused r => rfl

theorem execIter_eq (raw : BitVec 5) (s : State) : exec (.iter raw) s =
    andThen (handleAll (applied raw s) (sampleAll (rawSamples raw) (begin s)).1) fun t =>
      respond (BitVec.ofNat 8 (iterWord (triggered raw s) (applied raw s))) (refreshOutputs t) := by
  rw [triggered_eq, ← iterResponse_eq, applied_eq]
  rfl

/-- Settles O44: from the beginning of the first operation to the answer of the last, only the responses between them
differ. -/
theorem iterIsItsProgramOfPrimitives : Obligations.IterIsItsProgramOfPrimitives := by
  unfold Obligations.IterIsItsProgramOfPrimitives
  intro raw s
  obtain ⟨a, samples, sampled⟩ := runOps_sampleOps raw s
  rw [execIter_eq, ← sampled, ← runEvents_begin, andThen_assoc, samples, andThen_next]
  rfl

/-! ## The engine alone -/

/-- Two states hold the same build, Game State and history: all that the engine's operations read. -/
def SameEngine (s t : State) : Prop := s.cfg = t.cfg ∧ s.game = t.game ∧ s.history = t.history

theorem alike_andThen {P Q : State → State → Prop} {r r' : Result} {k k' : State → Result} (h : alike P r r')
    (follows : ∀ s t, P s t → alike Q (k s) (k' t)) : alike Q (andThen r k) (andThen r' k') := by
  cases r with
  | fault f => cases f
  | next s =>
    cases r' with
    | next t => exact follows s t h
    | fault f => cases f
    | refused x => exact h.elim
  | refused x =>
    cases r' with
    | next t => exact h.elim
    | fault f => cases f
    | refused y => exact h

theorem alike_next {P : State → State → Prop} {s : State} {r : Result} (h : alike P (.next s) r) :
    ∃ t, r = .next t ∧ P s t := by
  cases r with
  | next t => exact ⟨t, rfl, h⟩
  | fault f => cases f
  | refused x => exact h.elim

theorem awardPoint_alike (p : Player) {s t : State} (same : SameEngine s t) :
    alike SameEngine (awardPoint p s) (awardPoint p t) := by
  obtain ⟨cfg, game, history⟩ := same
  simp only [awardPoint, cfg, game, history]
  cases pointAwarded t.cfg p t.game with
  | ok g => exact ⟨rfl, rfl, rfl⟩
  | error r => exact rfl

theorem handleButton_alike (b : Button) {s t : State} (same : SameEngine s t) :
    alike SameEngine (handleButton b s) (handleButton b t) := by
  have ⟨cfg, game, history⟩ := same
  cases b with
  | mode =>
    simp only [handleButton, setMode_eq, game]
    exact ⟨cfg, rfl, history⟩
  | fs =>
    simp only [handleButton, setFirstServe_eq, game]
    exact ⟨cfg, rfl, history⟩
  | undo =>
    simp only [handleButton, undoPoint, history]
    cases popped t.history with
    | none => exact same
    | some snapshot => exact ⟨cfg, rfl, rfl⟩
  | p1 => exact awardPoint_alike .p1 same
  | p2 => exact awardPoint_alike .p2 same

theorem handleAll_alike (bs : List Button) {s t : State} (same : SameEngine s t) :
    alike SameEngine (handleAll bs s) (handleAll bs t) := by
  induction bs generalizing s t with
  | nil => exact same
  | cons b bs ih => exact alike_andThen (handleButton_alike b same) fun _ _ => ih

/-- Settles O46: the samples before the event are nothing the event reads. -/
theorem firstOnlyAppliesAtMostOneEvent : Obligations.FirstOnlyAppliesAtMostOneEvent := by
  unfold Obligations.FirstOnlyAppliesAtMostOneEvent
  intro raw s t policy h
  rw [execIter_eq, applied, policy] at h
  obtain ⟨u, events, answer⟩ := andThen_eq_next h
  cases answer
  cases trig : triggered raw s with
  | nil =>
    rw [trig] at events
    cases events
    exact ⟨by simp, by simp⟩
  | cons b rest =>
    rw [trig] at events
    obtain ⟨v, event, last⟩ := andThen_eq_next events
    cases last
    have same : SameEngine (sampleAll (rawSamples raw) (begin s)).1 (begin s) := ⟨rfl, rfl, rfl⟩
    obtain ⟨w, alone, _, game, history⟩ := alike_next (event ▸ handleButton_alike b same)
    exact ⟨{ w with resp := some 0x00#8 }, by rw [exec_eventOp, alone]; rfl, by simp [game], by simp [history]⟩

/-! ## Completion -/

/-- Events that each complete and keep a property of the state complete one after the other. -/
theorem handleAll_completes {P : State → Prop} {bs : List Button}
    (one : ∀ b ∈ bs, ∀ s, P s → ∃ t, handleButton b s = .next t ∧ P t) {s : State} (h : P s) :
    ∃ t, handleAll bs s = .next t ∧ P t := by
  induction bs generalizing s with
  | nil => exact ⟨s, rfl, h⟩
  | cons b bs ih =>
    obtain ⟨first, later⟩ := List.forall_mem_cons.1 one
    obtain ⟨u, event, kept⟩ := first s h
    obtain ⟨t, events, last⟩ := ih later kept
    exact ⟨t, by rw [handleAll, event, andThen_next, events], last⟩

theorem handleAll_append (bs bs' : List Button) (s : State) :
    handleAll (bs ++ bs') s = andThen (handleAll bs s) (handleAll bs') := by
  induction bs generalizing s with
  | nil => rfl
  | cons b bs ih =>
    rw [List.cons_append, handleAll, handleAll, andThen_assoc]
    exact congrArg (andThen (handleButton b s)) (funext ih)

/-- R184, log 8: under the hardware's reading every event completes. -/
theorem handleButton_of_hardware (b : Button) (s : State) (reading : s.cfg.overflowReading = .hardware) :
    ∃ t, handleButton b s = .next t ∧ t.cfg.overflowReading = .hardware := by
  have point (p : Player) : ∃ t, awardPoint p s = .next t := by
    obtain ⟨g, e⟩ := pointAwarded_of_hardware reading p s.game
    exact ⟨_, by rw [awardPoint, e]⟩
  have completes : ∃ t, handleButton b s = .next t := by
    cases b with
    | p1 => exact point .p1
    | p2 => exact point .p2
    | _ => exact ⟨_, rfl⟩
  obtain ⟨t, event⟩ := completes
  exact ⟨t, event, by rw [handleButton_keeps event]; exact reading⟩

/-- Room for a point in the Game State and in every snapshot. -/
def AllRoom (s : State) : Prop := ∀ g ∈ s.game :: s.history, RoomForPoint s.cfg g

theorem allRoom_setGame {s : State} (room : AllRoom s) {g : GameState} (score : g.score = s.game.score)
    (games : g.games = s.game.games) : AllRoom { s with game := g } := by
  obtain ⟨current, snapshots⟩ := List.forall_mem_cons.1 room
  refine List.forall_mem_cons.2 ⟨?_, snapshots⟩
  unfold RoomForPoint
  rw [score, games]
  exact current

/-- The events before the points complete and keep that room: an undo makes the Game State one of the snapshots. -/
theorem handleButton_allRoom {b : Button} (setting : b ∈ [Button.mode, .fs, .undo]) (s : State) (room : AllRoom s) :
    ∃ t, handleButton b s = .next t ∧ AllRoom t := by
  cases b with
  | mode =>
    refine ⟨_, rfl, ?_⟩
    rw [setMode_eq]
    exact allRoom_setGame room (by split <;> rfl) (by split <;> rfl)
  | fs =>
    refine ⟨_, rfl, ?_⟩
    rw [setFirstServe_eq]
    exact allRoom_setGame room (by split <;> rfl) (by split <;> rfl)
  | undo =>
    refine ⟨_, rfl, ?_⟩
    obtain ⟨_, e⟩ | ⟨older, g, newest, e⟩ := undoPoint_cases s
    · rwa [e]
    · have snapshots := (List.forall_mem_cons.1 room).2
      rw [newest] at snapshots
      rw [e]
      exact List.forall_mem_cons.2 ⟨snapshots g (by simp), fun g' older' => snapshots g' (by simp [older'])⟩
  | p1 => exact absurd setting (by decide)
  | p2 => exact absurd setting (by decide)

theorem pointHasRoom_of_roomForPoint {c : Config} {g : GameState} (room : RoomForPoint c g) (p : Player) :
    pointHasRoom c p g := ⟨(room p).1, fun w _ => (room w).2⟩

/-- A point of p leaves room for a point of the other player: without a win the other's registers are as they were,
after one the scores are 0 and nobody wins on the next point. -/
theorem pointHasRoom_opponent {c : Config} {g : GameState} (room : RoomForPoint c g) (p : Player) :
    pointHasRoom c (opponent p) (afterPoint p g) := by
  unfold afterPoint
  split
  · refine ⟨?_, fun w _ => (room w).2⟩
    rw [ofPlayer_oneMore_opponent]
    exact (room (opponent p)).1
  · have fits : FitsWidth c.scoreW 1 := fun k width =>
      (Nat.succ_le_succ (Nat.zero_le _)).trans_lt ((room p).1 k width)
    have noWinner (m : Mode) (games : PerPlayer Nat) :
        winnerAfterPoint (opponent p) ⟨⟨0, 0⟩, games, g.firstServe, m⟩ = none := by cases p <;> cases m <;> rfl
    exact ⟨by cases p <;> exact fits, fun w wins => nomatch wins.symm.trans (noWinner _ _)⟩

theorem awardPoint_of_room {p : Player} {s : State} (room : pointHasRoom s.cfg p s.game) :
    awardPoint p s = .next { s with history := pushed s.history s.game, game := afterPoint p s.game } := by
  rw [awardPoint, pointAwarded_of_room room]

theorem handleAll_points_of_room {bs : List Button} (points : bs.Sublist [Button.p1, .p2]) {s : State}
    (room : RoomForPoint s.cfg s.game) : ∃ t, handleAll bs s = .next t := by
  have one (p : Player) := awardPoint_of_room (pointHasRoom_of_roomForPoint room p)
  have options : bs ∈ [[], [Button.p1], [Button.p2], [Button.p1, .p2]] := List.mem_sublists.2 points
  simp only [List.mem_cons, List.not_mem_nil, or_false] at options
  obtain rfl | rfl | rfl | rfl := options
  · exact ⟨s, rfl⟩
  · exact ⟨_, by rw [handleAll, handleButton, one, andThen_next, handleAll]⟩
  · exact ⟨_, by rw [handleAll, handleButton, one, andThen_next, handleAll]⟩
  · exact ⟨_, by
      rw [handleAll, handleButton, one, andThen_next, handleAll, handleButton,
        awardPoint_of_room (pointHasRoom_opponent room .p1), andThen_next, handleAll]⟩

theorem handledButtons_sublist (policy : EventPolicy) (trig : PerButton Bool) :
    (handledButtons policy trig).Sublist buttonsInOrder := by
  cases policy with
  | firstOnly => exact (List.take_sublist _ _).trans List.filter_sublist
  | allInOrder => exact List.filter_sublist

/-- With room, the events in the fixed order complete: the points come last, one of each player. -/
theorem handleAll_of_allRoom {bs : List Button} (order : bs.Sublist buttonsInOrder) {s : State} (room : AllRoom s) :
    ∃ t, handleAll bs s = .next t := by
  obtain ⟨settings, points, rfl, first, last⟩ :=
    List.sublist_append_iff (r₁ := [Button.mode, .fs, .undo]) (r₂ := [.p1, .p2]).1 order
  obtain ⟨u, before, kept⟩ :=
    handleAll_completes (fun b setting => handleButton_allRoom (first.subset setting)) room
  obtain ⟨t, after⟩ := handleAll_points_of_room last (kept u.game (by simp))
  exact ⟨t, by rw [handleAll_append, before, andThen_next, after]⟩

/-- R85: the low five bits of the response. -/
theorem trigBits_getLsbD (m f u p q : Bool) (b : Button) :
    (BitVec.ofBool q ++ BitVec.ofBool p ++ BitVec.ofBool u ++ BitVec.ofBool f ++ BitVec.ofBool m).getLsbD
      (buttonIndex b) = ofButton ⟨m, f, u, p, q⟩ b := by
  cases b <;> revert m f u p q <;> decide

theorem iterResponse_getLsbD (done : Option Button) (trig : PerButton Bool) (b : Button) :
    (iterResponse done trig).getLsbD (buttonIndex b) = ofButton trig b := by
  have low : buttonIndex b < 5 := by cases b <;> decide
  exact (BitVec.getLsbD_append.trans (if_pos low)).trans (trigBits_getLsbD _ _ _ _ _ b)

/-- Settles O45: the events complete under either hypothesis, and neither they nor the refresh touch the windows. -/
theorem iterationCompletes : Obligations.IterationCompletes := by
  unfold Obligations.IterationCompletes
  intro raw s completes
  obtain ⟨u, events⟩ : ∃ u, handleAll (applied raw s) (sampleAll (rawSamples raw) (begin s)).1 = .next u := by
    obtain reading | room := completes
    · obtain ⟨u, events, _⟩ := handleAll_completes (P := fun s => s.cfg.overflowReading = .hardware)
        (fun b _ s => handleButton_of_hardware b s) (s := (sampleAll (rawSamples raw) (begin s)).1) reading
      exact ⟨u, events⟩
    · rw [applied_eq]
      exact handleAll_of_allRoom (handledButtons_sublist _ _) (s := (sampleAll (rawSamples raw) (begin s)).1) room
  refine ⟨_, by rw [execIter_eq, events, andThen_next, respond_eq], fun b =>
    ⟨_, exec_dbSample_sampledState b _ s, ?_, _, rfl, ?_⟩⟩
  · rw [sampledState_window, ← ofButton_rawSamples]
    simp only [refreshOutputs_deb]
    rw [handleAll_keeps events]
    exact sampleAll_window (rawSamples raw) (begin s) b
  · rw [triggered_eq, ← iterResponse_eq, iterResponse_getLsbD, ofButton_iterTriggers, ← trigger_response_iff,
      beq_iff_eq, sampledState_resp, ofButton_rawSamples]

end Sys2Proof.Proofs

/-!
What an operation writes (R46's `w` entries), operation by operation.
-/

namespace Sys2Proof.Proofs

open Sys2Proof Sys2Proof.Machine Sys2Proof.Claims

/-- What a render of display u leaves alone. -/
theorem renderLeaves_agreeOn {s t : State} {u : Display} {on : Nat → Prop} {es : List Event}
    (h : RenderLeaves s t u on es) {c : Component} (other : c ≠ .outputs u) : agreeOn s t c := by
  obtain ⟨cfg, deb, game, history, _⟩ := h.rest
  cases c with
  | outputs v =>
    obtain ⟨sel, seg⟩ := h.others v fun same => other (congrArg Component.outputs same)
    exact ⟨sel.symm, seg.symm⟩
  | ind => exact h.indicators.symm
  | _ => simp [agreeOn, cfg, deb, game, history]

theorem exec_rndDec_leaves {u : Display} {value : Nat} {dp : Option Nat} {s t : State}
    (h : exec (.rndDec u value dp) s = .next t) :
    RenderLeaves s t u (· < digitCount s.cfg u) (renderEvents s.cfg u 10 (commandValue s.cfg u value) dp) := by
  cases h
  exact renderNumber_renderLeaves u .dec _ dp s

theorem exec_rndHex_leaves {u : Display} {value : Nat} {dp : Option Nat} {s t : State}
    (h : exec (.rndHex u value dp) s = .next t) :
    RenderLeaves s t u (· < digitCount s.cfg u) (renderEvents s.cfg u 16 (commandValue s.cfg u value) dp) := by
  cases h
  exact renderNumber_renderLeaves u .hex _ dp s

theorem absorbed_renderLeaves (u : Display) (s : State) :
    RenderLeaves s { begin s with resp := some 0x00#8 } u (fun _ => False) [] where
  rest := ⟨rfl, rfl, rfl, rfl, rfl⟩
  indicators := rfl
  response := rfl
  trace := rfl
  others _ _ := ⟨rfl, rfl⟩
  outputs := rfl
  off _ drawn := drawn.elim
  kept _ _ := rfl
  clear drawn := absurd rfl drawn
  untouched _ := rfl

theorem exec_rndCustom_leaves {u : Display} {pattern : Byte} {digit : Nat} {s t : State}
    (h : exec (.rndCustom u pattern digit) s = .next t) : ∃ on es, RenderLeaves s t u on es := by
  obtain ⟨_, rfl⟩ | ⟨_, rfl⟩ | ⟨_, _, rfl⟩ := exec_rndCustom_eq_next h
  · exact ⟨_, _, driveDigit_renderLeaves u digit pattern s⟩
  · exact ⟨_, _, absorbed_renderLeaves u s⟩
  · exact ⟨_, _, driveUnselected_renderLeaves u pattern s⟩

/-- A new answer and new events are in no column of the table. -/
theorem agreeOn_answered (s : State) (resp : Option Byte) (events : List Event) (c : Component) :
    agreeOn s { s with resp := resp, events := events } c := by
  cases c with
  | slot b => exact ⟨rfl, rfl, rfl⟩
  | outputs u => exact ⟨rfl, rfl⟩
  | _ => rfl

/-- A new Game State and history are in the engine's columns alone. -/
theorem agreeOn_engine (s : State) (game : GameState) (history : List GameState) (resp : Option Byte)
    (events : List Event) {c : Component} (outside : c ∉ [Component.score, .games, .firstServe, .mode, .hist]) :
    agreeOn s { s with game := game, history := history, resp := resp, events := events } c := by
  cases c with
  | slot b => exact ⟨rfl, rfl, rfl⟩
  | outputs u => exact ⟨rfl, rfl⟩
  | ctr b => rfl
  | latched b => rfl
  | segTable => rfl
  | ind => rfl
  | _ => exact absurd outside (by decide)

theorem agreeOn_refreshed {s : State} (resp : Option Byte) {c : Component} (outside : writes .refresh c = false) :
    agreeOn s { refreshOutputs (begin s) with resp := resp } c := by
  cases c with
  | outputs u => cases outside
  | ind => cases outside
  | _ => simp [agreeOn]

theorem agreeOn_sampledState {b : Button} (raw : Bool) (s : State) {c : Component}
    (outside : writes (.dbSample b raw) c = false) : agreeOn s (sampledState b raw s) c := by
  have other {d : Button} (unwritten : (b == d) = false) : ofButton (sampledState b raw s).deb d = ofButton s.deb d :=
    sampledState_window_ne raw s fun same => by simp [same] at unwritten
  cases c with
  | slot d => simp [agreeOn, other outside]
  | ctr d => simp [agreeOn, other outside]
  | latched d => simp [agreeOn, other outside]
  | outputs u => exact ⟨rfl, rfl⟩
  | _ => rfl

/-- R46, the `w` entries. -/
theorem exec_agreeOn_unwritten {i : Instr} {s t : State} (h : exec i s = .next t) {c : Component}
    (unwritten : writes i c = false) : agreeOn s t c := by
  cases i with
  | nop => cases h; exact agreeOn_answered s _ _ c
  | dbSample b raw => cases h; exact agreeOn_sampledState raw s unwritten
  | dbQuery b => cases h; exact agreeOn_answered s _ _ c
  | segEnc d => cases h; exact agreeOn_answered s _ _ c
  | rndDec u value dp => exact renderLeaves_agreeOn (exec_rndDec_leaves h) (by rintro rfl; simp [writes] at unwritten)
  | rndHex u value dp => exact renderLeaves_agreeOn (exec_rndHex_leaves h) (by rintro rfl; simp [writes] at unwritten)
  | rndCustom u pattern digit =>
    obtain ⟨on, es, leaves⟩ := exec_rndCustom_leaves h
    exact renderLeaves_agreeOn leaves (by rintro rfl; simp [writes] at unwritten)
  | scServe => cases h; exact agreeOn_answered s _ _ c
  | scPoint p =>
    obtain ⟨g, e, rfl⟩ := exec_scPoint_eq_next h
    obtain ⟨mode, firstServe⟩ := pointAwarded_keeps e
    cases c with
    | mode => exact mode.symm
    | firstServe => exact firstServe.symm
    | score => cases unwritten
    | games => cases unwritten
    | hist => cases unwritten
    | _ => exact agreeOn_engine s _ _ _ _ (by simp)
  | scUndo =>
    rw [exec_scUndo_frame] at h
    cases h
    refine agreeOn_engine s _ _ _ _ fun engine => ?_
    cases c with
    | score | games | firstServe | mode | hist => cases unwritten
    | _ => simp at engine
  | scSetMode m =>
    rw [exec_scSetMode] at h
    cases h
    cases c with
    | mode => cases unwritten
    | score | games | firstServe => simp only [agreeOn]; split <;> rfl
    | hist => rfl
    | _ => exact agreeOn_engine s _ s.history _ _ (by simp)
  | scSetFs p =>
    rw [exec_scSetFs] at h
    cases h
    cases c with
    | firstServe => cases unwritten
    | score | games | mode => simp only [agreeOn]; split <;> rfl
    | hist => rfl
    | _ => exact agreeOn_engine s _ s.history _ _ (by simp)
  | iter raw =>
    cases c with
    | segTable => exact congrArg Config.segTable (exec_keeps_cfg_input h).1.symm
    | _ => cases unwritten
  | refresh => cases h; exact agreeOn_refreshed _ unwritten

/-- Settles O51: the build and the inputs by R43, the columns by the table. -/
theorem onlyListedStateIsWritten : Obligations.OnlyListedStateIsWritten := by
  unfold Obligations.OnlyListedStateIsWritten
  intro i s t h
  obtain ⟨cfg, input⟩ := exec_keeps_cfg_input h
  exact ⟨cfg, input, fun c => exec_agreeOn_unwritten h⟩

end Sys2Proof.Proofs

/-!
The whole machine: the port and reset (R80, R86, R260), the invariant every step keeps, and the places where the model
stops (R238).
-/

namespace Sys2Proof.Proofs

open Sys2Proof Sys2Proof.Machine Sys2Proof.Claims

/-! ## One step -/

theorem step_command {s : State} {w : Word} {rest : List HostInput} (next : s.input = .command w :: rest) :
    step s = runWord w { s with input := rest } := by rw [step, next]; rfl

theorem step_reset {s : State} {rest : List HostInput} (next : s.input = .reset :: rest) :
    step s = .next (afterReset { s with input := rest }) := by rw [step, next]; rfl

theorem step_idle {s : State} (idle : s.input = []) : step s = .next s := by rw [step, idle]

theorem runWord_op {w : Word} {i : Instr} (decoded : decode w = .op i) : runWord w = exec i := by
  funext s
  rw [runWord, decoded]

theorem runWord_reserved {w : Word} {why : ReservedReason} (decoded : decode w = .reserved why) :
    runWord w = runReserved why := by
  funext s
  rw [runWord, decoded]

theorem runReserved_hardware {s : State} (reading : s.cfg.reservedReading = .hardware) (why : ReservedReason) :
    runReserved why s = exec .nop s := by
  rw [runReserved, reading]
  rfl

theorem runReserved_refuse {s : State} (reading : s.cfg.reservedReading = .refuse) (why : ReservedReason) :
    runReserved why s = .refused (.reservedEncoding why) := by rw [runReserved, reading]

/-- R80, R86, R260, R261: what a step is: idle, a reset, an operation (NOP for a reserved word that runs as one), or the
refusal of a reserved word. -/
theorem step_cases (s : State) :
    (s.input = [] ∧ step s = .next s) ∨
    (∃ rest, s.input = .reset :: rest ∧ step s = .next (afterReset { s with input := rest })) ∨
    (∃ w rest i, s.input = .command w :: rest ∧ (decode w = .op i ∨ i = .nop) ∧
      step s = exec i { s with input := rest }) ∨
    ∃ w rest why, s.input = .command w :: rest ∧ decode w = .reserved why ∧ s.cfg.reservedReading = .refuse ∧
      step s = .refused (.reservedEncoding why) := by
  match next : s.input with
  | [] => exact .inl ⟨rfl, step_idle next⟩
  | .reset :: rest => exact .inr (.inl ⟨rest, rfl, step_reset next⟩)
  | .command w :: rest =>
    refine .inr (.inr ?_)
    rw [step_command next]
    cases decoded : decode w with
    | op i => exact .inl ⟨w, rest, i, rfl, .inl decoded, by rw [runWord_op decoded]⟩
    | reserved why =>
      rw [runWord_reserved decoded]
      cases reading : s.cfg.reservedReading with
      | hardware =>
        exact .inl ⟨w, rest, .nop, rfl, .inr rfl, runReserved_hardware (s := { s with input := rest }) reading why⟩
      | refuse =>
        exact .inr ⟨w, rest, why, rfl, decoded, rfl, runReserved_refuse (s := { s with input := rest }) reading why⟩

/-- Settles O6. The item at the head of the list is the word, and a word that decodes is executed. -/
theorem stepRunsTheDecodedInstruction : Obligations.StepRunsTheDecodedInstruction := by
  unfold Obligations.StepRunsTheDecodedInstruction
  intro s w rest i next decoded
  rw [step_command next, runWord_op decoded]

/-- Settles O7: the two readings of a reserved word. -/
theorem reservedWordRunsAsNopOrIsRefused : Obligations.ReservedWordRunsAsNopOrIsRefused := by
  unfold Obligations.ReservedWordRunsAsNopOrIsRefused
  intro s w rest why next decoded
  rw [step_command next, runWord_reserved decoded]
  refine ⟨fun reading => ?_, fun reading => runReserved_refuse (s := { s with input := rest }) reading why⟩
  have runs := runReserved_hardware (s := { s with input := rest }) reading why
  exact ⟨runs.trans (exec_nop _), runs⟩

theorem resetWith_outputs (c : Config) (u : Display) :
    ofDisplay (State.resetWith c).sel u = List.replicate (ofDisplay c.digits u) false ∧
      ofDisplay (State.resetWith c).seg u = 0x00#8 := by cases u <;> exact ⟨rfl, rfl⟩

/-- Settles O8: what stands at reset stands in `State.resetWith`, of the state's own build. -/
theorem resetLeavesTheResetValues : Obligations.ResetLeavesTheResetValues := by
  unfold Obligations.ResetLeavesTheResetValues
  exact ⟨fun s rest next => ⟨_, step_reset next, rfl, rfl, rfl, rfl, rfl, resetWith_window s.cfg,
    resetWith_outputs s.cfg, rfl⟩, fun _ => step_idle⟩

/-- Settles O9: the values of the default build, which is a legal one. -/
theorem resetStateHoldsTheDefaults : Obligations.ResetStateHoldsTheDefaults := by
  unfold Obligations.ResetStateHoldsTheDefaults
  have legal : Config.default.Wf := by decide
  exact ⟨rfl, rfl, rfl, resetWith_window .default, rfl, rfl, rfl, rfl, rfl, rfl, legal, rfl, rfl, rfl,
    fun u => by cases u <;> rfl, rfl, rfl, rfl, rfl, rfl, rfl, rfl, rfl, fun b => by cases b <;> rfl, rfl, rfl, rfl,
    rfl⟩

/-! ## The engine's part of the invariant -/

/-- R33, R34, R38, R40: the part of the invariant that is about the Game State and its history. -/
def EngineSound (s : State) : Prop :=
  s.history.length ≤ historyCapacity ∧ ∀ g ∈ s.game :: s.history, GameFits s.cfg g ∧ NoStandingWin g

theorem engineSound_congr {s t : State} (same : SameEngine s t) (sound : EngineSound s) : EngineSound t := by
  obtain ⟨cfg, game, history⟩ := same
  unfold EngineSound
  rw [← cfg, ← game, ← history]
  exact sound

theorem mem_historyAfterPush {h : List GameState} {g x : GameState} (mem : x ∈ historyAfterPush h g) :
    x ∈ g :: h := by
  rw [historyAfterPush, List.mem_append, List.mem_singleton] at mem
  obtain kept | rfl := mem
  · refine List.mem_cons_of_mem _ ?_
    split at kept
    · exact List.mem_of_mem_drop kept
    · exact kept
  · exact List.mem_cons_self

theorem engineSound_awardPoint {p : Player} {s t : State} (h : awardPoint p s = .next t) (sound : EngineSound s) :
    EngineSound t := by
  obtain ⟨capacity, games⟩ := sound
  obtain ⟨g, e, award⟩ | ⟨_, _, award⟩ := awardPoint_cases p s <;> rw [award] at h <;> cases h
  rw [pushed_eq_historyAfterPush]
  have fits := (games s.game List.mem_cons_self).1
  refine ⟨?_, List.forall_mem_cons.2 ⟨⟨pointAwarded_fits e fits, pointAwarded_noStandingWin e⟩,
    fun x mem => games x (mem_historyAfterPush mem)⟩⟩
  simp only [length_historyAfterPush, historyCapacity] at capacity ⊢
  split <;> omega

theorem engineSound_undoPoint {s : State} (sound : EngineSound s) : EngineSound (undoPoint s) := by
  obtain ⟨_, e⟩ | ⟨older, g, newest, e⟩ := undoPoint_cases s <;> rw [e]
  · exact sound
  · obtain ⟨capacity, games⟩ := sound
    rw [newest] at capacity games
    refine ⟨(by simp : older.length ≤ (older ++ [g]).length).trans capacity, fun x mem => games x ?_⟩
    obtain rfl | mem := List.mem_cons.1 mem <;> simp [*]

/-- A setter leaves a Game State that fits and has no standing win: it wrote no score, or wrote at 0-0. -/
theorem engineSound_setGame {s : State} (sound : EngineSound s) {g : GameState} (score : g.score = s.game.score)
    (games : g.games = s.game.games) (noWin : NoStandingWin g) : EngineSound { s with game := g } := by
  obtain ⟨capacity, old⟩ := sound
  obtain ⟨⟨fits, _⟩, snapshots⟩ := List.forall_mem_cons.1 old
  refine ⟨capacity, List.forall_mem_cons.2 ⟨⟨?_, noWin⟩, snapshots⟩⟩
  unfold GameFits
  rw [score, games]
  exact fits

theorem engineSound_setMode (m : Mode) {s : State} (sound : EngineSound s) : EngineSound (setMode m s) := by
  rw [setMode_eq]
  split
  case isTrue zero => exact engineSound_setGame sound rfl rfl (noStandingWin_of_zeroAll zero)
  case isFalse => exact sound

theorem engineSound_setFirstServe (p : Player) {s : State} (sound : EngineSound s) :
    EngineSound (setFirstServe p s) := by
  rw [setFirstServe_eq]
  split
  case isTrue zero => exact engineSound_setGame sound rfl rfl (noStandingWin_of_zeroAll zero)
  case isFalse => exact sound

theorem engineSound_handleButton {b : Button} {s t : State} (h : handleButton b s = .next t) (sound : EngineSound s) :
    EngineSound t := by
  cases b with
  | mode => cases h; exact engineSound_setMode _ sound
  | fs => cases h; exact engineSound_setFirstServe _ sound
  | undo => cases h; exact engineSound_undoPoint sound
  | p1 => exact engineSound_awardPoint (p := .p1) h sound
  | p2 => exact engineSound_awardPoint (p := .p2) h sound

theorem engineSound_handleAll {bs : List Button} {s t : State} (h : handleAll bs s = .next t)
    (sound : EngineSound s) : EngineSound t := by
  induction bs generalizing s with
  | nil => cases h; exact sound
  | cons b bs ih =>
    obtain ⟨u, event, events⟩ := andThen_eq_next h
    exact ih events (engineSound_handleButton event sound)

/-- Where none of the engine's columns is written the engine is as before. -/
theorem sameEngine_of_unwritten {i : Instr} {s t : State} (h : exec i s = .next t)
    (unwritten : ∀ c ∈ [Component.score, .games, .firstServe, .mode, .hist], writes i c = false) :
    SameEngine s t := by
  have kept (c : Component) (engine : c ∈ [Component.score, .games, .firstServe, .mode, .hist]) : agreeOn s t c :=
    exec_agreeOn_unwritten h (unwritten c engine)
  refine ⟨(exec_keeps_cfg_input h).1.symm, ?_, kept .hist (by simp)⟩
  have score : s.game.score = t.game.score := kept .score (by simp)
  have games : s.game.games = t.game.games := kept .games (by simp)
  have firstServe : s.game.firstServe = t.game.firstServe := kept .firstServe (by simp)
  have mode : s.game.mode = t.game.mode := kept .mode (by simp)
  calc s.game = ⟨s.game.score, s.game.games, s.game.firstServe, s.game.mode⟩ := rfl
    _ = ⟨t.game.score, t.game.games, t.game.firstServe, t.game.mode⟩ := by rw [score, games, firstServe, mode]

theorem exec_keeps_engineSound {i : Instr} {s t : State} (h : exec i s = .next t) (sound : EngineSound s) :
    EngineSound t := by
  cases i with
  | scPoint p =>
    obtain ⟨u, award, answer⟩ := andThen_eq_next h
    cases answer
    exact engineSound_congr (s := u) ⟨rfl, rfl, rfl⟩ (engineSound_awardPoint award sound)
  | scUndo => cases h; exact engineSound_undoPoint (s := begin s) sound
  | scSetMode m => cases h; exact engineSound_setMode m (s := begin s) sound
  | scSetFs p => cases h; exact engineSound_setFirstServe p (s := begin s) sound
  | iter raw =>
    rw [execIter_eq] at h
    obtain ⟨u, events, answer⟩ := andThen_eq_next h
    cases answer
    have sampled : EngineSound (sampleAll (rawSamples raw) (begin s)).1 := sound
    exact engineSound_congr (by simp [SameEngine]) (engineSound_handleAll events sampled)
  | _ => exact engineSound_congr (sameEngine_of_unwritten h (by simp [writes])) sound

/-! ## The windows, the outputs and the indicators -/

theorem window_kept_of_unwritten {i : Instr} {s t : State} (h : exec i s = .next t) {b : Button}
    (unwritten : writes i (.slot b) = false ∧ writes i (.ctr b) = false ∧ writes i (.latched b) = false) :
    ofButton t.deb b = ofButton s.deb b := by
  obtain ⟨slot, ctr, latched⟩ := unwritten
  obtain ⟨slot0, slot1, slot2⟩ := exec_agreeOn_unwritten h slot
  have ctr := exec_agreeOn_unwritten h ctr
  have latched := exec_agreeOn_unwritten h latched
  simp only [agreeOn] at ctr latched
  calc ofButton t.deb b = ⟨(ofButton t.deb b).slot0, (ofButton t.deb b).slot1, (ofButton t.deb b).slot2,
        (ofButton t.deb b).ctr, (ofButton t.deb b).latched⟩ := rfl
    _ = ofButton s.deb b := by rw [← slot0, ← slot1, ← slot2, ← ctr, ← latched]

/-- R27(d). -/
theorem exec_keeps_settled {i : Instr} {s t : State} (h : exec i s = .next t)
    (settled : ∀ b, DebouncerSettled (ofButton s.deb b)) (b : Button) : DebouncerSettled (ofButton t.deb b) := by
  cases i with
  | dbSample d raw =>
    cases h
    by_cases sampled : b = d
    · subst sampled
      exact sampledState_window b raw s ▸ sampleWindow_settled _ _
    · exact sampledState_window_ne raw s sampled ▸ settled b
  | iter raw =>
    obtain ⟨game, history, v, rfl⟩ := exec_iter_frame h
    simp only [refreshOutputs_deb, iterated]
    exact sampleAll_window (rawSamples raw) (begin s) b ▸ sampleWindow_settled _ _
  | _ => exact window_kept_of_unwritten h ⟨rfl, rfl, rfl⟩ ▸ settled b

/-- R146: a digit of dark displays that was on and off again leaves the outputs as they were. -/
theorem driveDigit_dark (u : Display) (i : Nat) (pat : Byte) {s : State} (dark : OutputsDark s) :
    (driveDigit u i pat s).sel = s.sel ∧ (driveDigit u i pat s).seg = s.seg := by
  obtain ⟨sel, seg⟩ := dark u
  rw [driveDigit_sel, driveDigit_seg]
  constructor
  · rw [sel, List.set_replicate_self, ← sel, setDisplay_ofDisplay]
  · rw [← seg, setDisplay_ofDisplay]

theorem driveUnselected_dark (u : Display) (pat : Byte) {s : State} (dark : OutputsDark s) :
    (driveUnselected u pat s).sel = s.sel ∧ (driveUnselected u pat s).seg = s.seg := by
  refine ⟨rfl, ?_⟩
  obtain ⟨_, seg⟩ := dark u
  simp only [driveUnselected, emit_seg, drive_seg_seg, drive_hold, setDisplay_setDisplay]
  rw [← seg, setDisplay_ofDisplay]

/-- R31: dark outputs are dark again. -/
theorem exec_dark {i : Instr} {s t : State} (h : exec i s = .next t) (dark : OutputsDark s) :
    t.sel = s.sel ∧ t.seg = s.seg := by
  have untouched (unwritten : ∀ u, writes i (.outputs u) = false) : t.sel = s.sel ∧ t.seg = s.seg :=
    ⟨perDisplay_ext fun u => (exec_agreeOn_unwritten h (unwritten u)).1.symm,
      perDisplay_ext fun u => (exec_agreeOn_unwritten h (unwritten u)).2.symm⟩
  have begun : OutputsDark (begin s) := dark
  cases i with
  | rndDec u value dp => cases h; exact renderNumber_dark u .dec _ dp begun
  | rndHex u value dp => cases h; exact renderNumber_dark u .hex _ dp begun
  | rndCustom u pattern digit =>
    obtain ⟨_, rfl⟩ | ⟨_, rfl⟩ | ⟨_, _, rfl⟩ := exec_rndCustom_eq_next h
    · exact driveDigit_dark u digit pattern begun
    · exact ⟨rfl, rfl⟩
    · exact driveUnselected_dark u pattern begun
  | iter raw =>
    obtain ⟨game, history, v, rfl⟩ := exec_iter_frame h
    have sampled : OutputsDark (iterated raw s game history) := dark
    exact refreshOutputs_dark sampled
  | refresh => cases h; exact refreshOutputs_dark begun
  | _ => exact untouched fun _ => rfl

/-- R32. -/
theorem exec_keeps_indicators {i : Instr} {s t : State} (h : exec i s = .next t)
    (exclusive : IndicatorsExclusive s) : IndicatorsExclusive t := by
  have server (p : Player) : ¬((p == .p1) = true ∧ (p == .p2) = true) := by cases p <;> decide
  unfold IndicatorsExclusive
  cases i with
  | iter raw => rw [execIter_ind h]; exact server _
  | refresh => rw [execRefresh_ind h]; exact server _
  | _ =>
    have kept : s.ind = t.ind := exec_agreeOn_unwritten h (c := .ind) rfl
    exact kept ▸ exclusive

/-! ## The invariant -/

theorem stateInvariant_iff (s : State) : StateInvariant s ↔
    (∀ b, DebouncerSettled (ofButton s.deb b)) ∧ OutputsDark s ∧ IndicatorsExclusive s ∧ EngineSound s := by
  constructor
  · rintro ⟨settled, dark, indicators, capacity, fits, noWin⟩
    exact ⟨settled, dark, indicators, capacity, fun g mem => ⟨fits g mem, noWin g mem⟩⟩
  · rintro ⟨settled, dark, indicators, capacity, games⟩
    exact ⟨settled, dark, indicators, capacity, fun g mem => (games g mem).1, fun g mem => (games g mem).2⟩

theorem exec_keeps_stateInvariant {i : Instr} {s t : State} (h : exec i s = .next t) (inv : StateInvariant s) :
    StateInvariant t := by
  rw [stateInvariant_iff] at inv ⊢
  obtain ⟨settled, dark, indicators, engine⟩ := inv
  obtain ⟨sel, seg⟩ := exec_dark h dark
  exact ⟨exec_keeps_settled h settled, outputsDark_congr (exec_keeps_cfg_input h).1 sel seg dark,
    exec_keeps_indicators h indicators, exec_keeps_engineSound h engine⟩

/-- R44: the reset values of every build meet the invariant. -/
theorem stateInvariant_afterReset (s : State) : StateInvariant (afterReset s) := by
  have zeroFits : GameFits s.cfg .reset := fun p => ⟨fitsWidth_zeroAll _ p, fitsWidth_zeroAll _ p⟩
  rw [stateInvariant_iff]
  refine ⟨fun b => ?_, resetWith_outputs s.cfg, nofun, Nat.zero_le _, fun g mem => ?_⟩
  · have released : ofButton (afterReset s).deb b = .reset := resetWith_window s.cfg b
    rw [released]
    decide
  · obtain rfl : g = .reset := List.mem_singleton.1 mem
    exact ⟨zeroFits, noStandingWin_of_zeroAll rfl⟩

/-- Settles O48: `State.reset` is what a reset leaves of it. -/
theorem resetMeetsTheInvariant : Obligations.ResetMeetsTheInvariant := by
  unfold Obligations.ResetMeetsTheInvariant
  exact stateInvariant_afterReset State.reset

/-- Settles O47, by the kind of the step. -/
theorem stepKeepsTheInvariant : Obligations.StepKeepsTheInvariant := by
  unfold Obligations.StepKeepsTheInvariant
  intro s t inv h
  obtain ⟨_, e⟩ | ⟨rest, _, e⟩ | ⟨w, rest, i, _, _, e⟩ | ⟨_, _, _, _, _, _, e⟩ := step_cases s <;> rw [e] at h
  · cases h
    exact inv
  · cases h
    exact stateInvariant_afterReset _
  · have taken : StateInvariant { s with input := rest } := by
      rw [stateInvariant_iff] at inv ⊢
      exact inv
    exact exec_keeps_stateInvariant h taken
  · cases h

/-! ## Where the model stops -/

/-- R238: the three operations that can be refused, each under its condition. -/
theorem exec_eq_refused {i : Instr} {s : State} {r : Refusal} (h : exec i s = .refused r) :
    (∃ u pattern, i = .rndCustom u pattern (digitCount s.cfg u) ∧ s.cfg.customBound = .le ∧
      s.cfg.boundaryReading = .refuse ∧ r = .customBoundary u) ∨
    (s.cfg.overflowReading = .refuse ∧
      ((∃ p, i = .scPoint p ∧ pointOverflow s.cfg p s.game r) ∨
        ∃ raw a b p done left, i = .iter raw ∧ runOps (sampleOps raw) s = .next a ∧
          applied raw s = done ++ pointButton p :: left ∧ runEvents done a = .next b ∧
          pointOverflow s.cfg p b.game r)) := by
  cases i with
  | rndCustom u pattern digit =>
    obtain ⟨_, e⟩ | ⟨_, e⟩ | ⟨_, _, e⟩ | ⟨rfl, bound, reading, e⟩ :=
      exec_rndCustom_cases u pattern digit s <;> rw [e] at h <;> cases h
    exact .inl ⟨u, pattern, rfl, bound, reading, rfl⟩
  | scPoint p =>
    cases e : pointAwarded s.cfg p s.game with
    | ok g =>
      rw [exec_scPoint_of_ok e] at h
      cases h
    | error r' =>
      rw [exec_scPoint_of_error e] at h
      cases h
      obtain ⟨reading, overflow⟩ := pointOverflow_of_error e
      exact .inr ⟨reading, .inl ⟨p, rfl, overflow⟩⟩
  | iter raw =>
    rw [execIter_eq] at h
    obtain events | ⟨_, _, answer⟩ := andThen_eq_refused h
    case inr => cases answer
    obtain ⟨done, b, left, t, order, before, refused⟩ := handleAll_eq_refused events
    obtain ⟨a, samples, sampled⟩ := runOps_sampleOps raw s
    rw [← sampled, ← runEvents_begin] at before
    obtain ⟨v, run, fresh⟩ := andThen_eq_next before
    cases fresh
    have cfg : v.cfg = s.cfg := by
      have kept := handleAll_keeps ((runEvents_begin done a).symm.trans before)
      have same : (begin a).cfg = s.cfg := by rw [sampled]; rfl
      exact (congrArg State.cfg kept).trans same
    obtain ⟨p, rfl, award⟩ : ∃ p, b = pointButton p ∧ awardPoint p (begin v) = .refused r := by
      cases b with
      | p1 => exact ⟨.p1, rfl, refused⟩
      | p2 => exact ⟨.p2, rfl, refused⟩
      | _ => cases refused
    obtain ⟨_, _, e⟩ | ⟨r', error, e⟩ := awardPoint_cases p (begin v) <;> rw [e] at award <;> cases award
    obtain ⟨reading, overflow⟩ := pointOverflow_of_error error
    rw [begin_cfg, cfg] at reading overflow
    exact .inr ⟨reading, .inr ⟨raw, a, v, p, done, left, rfl, samples, order, run, overflow⟩⟩
  | scUndo =>
    rw [exec_scUndo_frame] at h
    cases h
  | _ => cases h

/-- Settles O50: a step that is refused took a word, and that was reserved or an operation that is refused. -/
theorem refusalsAreTheFourOfTheRule : Obligations.RefusalsAreTheFourOfTheRule := by
  unfold Obligations.RefusalsAreTheFourOfTheRule
  intro s r h
  obtain ⟨_, e⟩ | ⟨_, _, e⟩ | ⟨w, rest, i, next, decoded, e⟩ | ⟨w, rest, why, next, decoded, reading, e⟩ :=
    step_cases s <;> rw [e] at h
  · cases h
  · cases h
  · refine ⟨w, rest, next, .inr ?_⟩
    obtain ⟨u, pattern, rfl, stop⟩ | ⟨reading, ⟨p, rfl, overflow⟩ |
      ⟨raw, a, b, p, done, left, rfl, samples, order, run, overflow⟩⟩ := exec_eq_refused h
    · exact .inl ⟨u, pattern, decoded.resolve_right nofun, stop⟩
    · exact .inr ⟨reading, .inl ⟨p, decoded.resolve_right nofun, overflow⟩⟩
    · exact .inr ⟨reading, .inr ⟨raw, a, b, p, done, left, decoded.resolve_right nofun, samples, order, run, overflow⟩⟩
  · cases h
    exact ⟨w, rest, next, .inl ⟨why, decoded, rfl, reading⟩⟩

theorem step_keeps_cfg {s t : State} (h : step s = .next t) : t.cfg = s.cfg := by
  obtain ⟨_, e⟩ | ⟨rest, _, e⟩ | ⟨w, rest, i, _, _, e⟩ | ⟨_, _, _, _, _, _, e⟩ := step_cases s <;> rw [e] at h
  · cases h
    rfl
  · cases h
    rfl
  · exact (exec_keeps_cfg_input h).1
  · cases h

/-- R184: with registers of width `inf` no point overflows. -/
theorem not_pointOverflow_of_unbounded {c : Config} (score : c.scoreW = none) (games : c.gamesW = none) (p : Player)
    (g : GameState) (r : Refusal) : ¬pointOverflow c p g r := by
  rintro (⟨full, _⟩ | ⟨_, w, _, full, _⟩)
  · exact full (score ▸ nofun)
  · exact full (games ▸ nofun)

/-- Settles O49: each of R238's four conditions contradicts a reading. -/
theorem theApplianceNeverHalts : Obligations.TheApplianceNeverHalts := by
  unfold Obligations.TheApplianceNeverHalts
  rintro s ⟨reserved, boundary, overflow⟩
  cases h : step s with
  | next t => exact ⟨t, rfl, step_keeps_cfg h⟩
  | fault f => cases f
  | refused r =>
    obtain ⟨w, rest, _, ⟨_, _, _, refuse⟩ | ⟨_, _, _, le, refuse, _⟩ | ⟨refuse, stop⟩⟩ :=
      refusalsAreTheFourOfTheRule s r h
    · cases reserved.symm.trans refuse
    · obtain lt | hardware := boundary
      · cases lt.symm.trans le
      · cases hardware.symm.trans refuse
    · obtain ⟨score, games⟩ | hardware := overflow
      · have fits := not_pointOverflow_of_unbounded score games
        obtain ⟨p, _, full⟩ | ⟨_, _, b, p, _, _, _, _, _, _, full⟩ := stop <;> exact absurd full (fits _ _ _)
      · cases hardware.symm.trans refuse

end Sys2Proof.Proofs

/-!
What an operation reads (R46's `r` entries): from two states that agree on it, the same answer, the same events and the
same items written.
-/

namespace Sys2Proof.Proofs

open Sys2Proof Sys2Proof.Machine Sys2Proof.Claims

/-! ## Agreement in a column -/

theorem agreeOn_symm {s t : State} {c : Component} (h : agreeOn s t c) : agreeOn t s c := by
  cases c with
  | slot b => exact ⟨h.1.symm, h.2.1.symm, h.2.2.symm⟩
  | outputs u => exact ⟨h.1.symm, h.2.symm⟩
  | _ => exact Eq.symm h

theorem agreeOn_trans {s t u : State} {c : Component} (h : agreeOn s t c) (h' : agreeOn t u c) : agreeOn s u c := by
  cases c with
  | slot b => exact ⟨h.1.trans h'.1, h.2.1.trans h'.2.1, h.2.2.trans h'.2.2⟩
  | outputs u => exact ⟨h.1.trans h'.1, h.2.trans h'.2⟩
  | _ => exact Eq.trans h h'

/-- The columns of one button together are its window. -/
theorem window_eq_of_agreeOn {s t : State} {b : Button} (slot : agreeOn s t (.slot b)) (ctr : agreeOn s t (.ctr b))
    (latched : agreeOn s t (.latched b)) : ofButton s.deb b = ofButton t.deb b := by
  obtain ⟨slot0, slot1, slot2⟩ := slot
  simp only [agreeOn] at ctr latched
  calc ofButton s.deb b = ⟨(ofButton s.deb b).slot0, (ofButton s.deb b).slot1, (ofButton s.deb b).slot2,
        (ofButton s.deb b).ctr, (ofButton s.deb b).latched⟩ := rfl
    _ = ofButton t.deb b := by rw [slot0, slot1, slot2, ctr, latched]

/-- The columns of the Game State together are the Game State. -/
theorem game_eq_of_agreeOn {s t : State} (score : agreeOn s t .score) (games : agreeOn s t .games)
    (firstServe : agreeOn s t .firstServe) (mode : agreeOn s t .mode) : s.game = t.game := by
  simp only [agreeOn] at score games firstServe mode
  calc s.game = ⟨s.game.score, s.game.games, s.game.firstServe, s.game.mode⟩ := rfl
    _ = t.game := by rw [score, games, firstServe, mode]

theorem cfg_eq_of_agreeOn {s t : State} (build : sameBuild s t) (segTable : agreeOn s t .segTable) :
    s.cfg = t.cfg := by
  unfold sameBuild at build
  simp only [agreeOn] at segTable
  rw [← segTable] at build
  exact build

/-- What does not read the segment table is the same on two builds that agree but for it. -/
theorem sameBuild_congr {α : Type} {s t : State} (build : sameBuild s t) (f : Config → α)
    (blind : ∀ c table, f { c with segTable := table } = f c) : f s.cfg = f t.cfg :=
  (blind s.cfg t.cfg.segTable).symm.trans (congrArg f build)

/-! ## Outputs -/

/-- An event drives a display and the indicators from what they were alone. -/
theorem agreeOn_drive (e : Event) {s t : State} {c : Component} (output : c = .ind ∨ ∃ u, c = .outputs u)
    (h : agreeOn s t c) : agreeOn (drive e s) (drive e t) c := by
  obtain rfl | ⟨u, rfl⟩ := output
  · cases e with
    | ind x y => rfl
    | _ => exact h
  · obtain ⟨sel, seg⟩ := h
    cases e with
    | sel v i x =>
      refine ⟨?_, seg⟩
      by_cases same : u = v
      · subst same
        simp [sel]
      · simpa [ofDisplay_setDisplay_ne _ _ same] using sel
    | seg v p =>
      refine ⟨sel, ?_⟩
      by_cases same : u = v
      · subst same
        simp
      · simpa [ofDisplay_setDisplay_ne _ _ same] using seg
    | hold v => exact ⟨sel, seg⟩
    | ind x y => exact ⟨sel, seg⟩

theorem agreeOn_replayed (es : List Event) {s t : State} {c : Component} (output : c = .ind ∨ ∃ u, c = .outputs u)
    (h : agreeOn s t c) : agreeOn (replayed es s) (replayed es t) c := by
  induction es generalizing s t with
  | nil => exact h
  | cons e es ih => exact ih (agreeOn_drive e output h)

theorem agreeOn_of_sameOutputs {s t : State} {c : Component} (output : c = .ind ∨ ∃ u, c = .outputs u)
    (h : SameOutputs s t) : agreeOn s t c := by
  obtain ⟨sel, seg, ind⟩ := h
  obtain rfl | ⟨u, rfl⟩ := output
  · exact ind
  · exact ⟨congrArg (ofDisplay · u) sel, congrArg (ofDisplay · u) seg⟩

/-- Operations with the same events leave the same outputs where they found the same. -/
theorem agreeOn_outputs_of_events {i : Instr} {s t u v : State} (hu : exec i s = .next u) (hv : exec i t = .next v)
    (events : u.events = v.events) {c : Component} (output : c = .ind ∨ ∃ w, c = .outputs w) (h : agreeOn s t c) :
    agreeOn u v c := by
  have left := agreeOn_of_sameOutputs output (exec_draws hu).outputs
  have right := agreeOn_of_sameOutputs output (exec_draws hv).outputs
  have driven := agreeOn_replayed u.events output h
  rw [← events] at right
  exact agreeOn_trans (agreeOn_symm left) (agreeOn_trans driven right)

/-! ## What remains to be shown of one operation -/

/-- The engine and debouncer columns: those whose new value is not known from the events. -/
def isStored : Component → Bool
  | .outputs _ => false
  | .ind => false
  | _ => true

/-- The same answer and events from s and t, and the columns written are alike where s and t were. -/
def ReadsAlike (i : Instr) (s t u v : State) : Prop :=
  u.resp = v.resp ∧ u.events = v.events ∧
    ∀ c, writes i c = true → isStored c = true → agreeOn s t c → agreeOn u v c

/-- The columns not written are known from R46's `w` entries, the outputs from the events. -/
theorem alike_of_readsAlike {i : Instr} {s t : State} (h : alike (ReadsAlike i s t) (exec i s) (exec i t)) :
    alike (fun u v => u.resp = v.resp ∧ u.events = v.events ∧ ∀ c, agreeOn s t c → agreeOn u v c)
      (exec i s) (exec i t) := by
  cases hu : exec i s with
  | fault f => cases f
  | refused r =>
    rw [hu] at h
    cases hv : exec i t with
    | next v => rw [hv] at h; exact h
    | fault f => cases f
    | refused r' => rw [hv] at h; exact h
  | next u =>
    rw [hu] at h
    obtain ⟨v, hv, resp, events, written⟩ := alike_next h
    rw [hv]
    refine ⟨resp, events, fun c agree => ?_⟩
    cases writing : writes i c with
    | false =>
      have left := exec_agreeOn_unwritten hu writing
      have right := exec_agreeOn_unwritten hv writing
      exact agreeOn_trans (agreeOn_symm left) (agreeOn_trans agree right)
    | true =>
      cases c with
      | outputs w => exact agreeOn_outputs_of_events hu hv events (.inr ⟨w, rfl⟩) agree
      | ind => exact agreeOn_outputs_of_events hu hv events (.inl rfl) agree
      | _ => exact written _ writing rfl agree

/-- The operations that write the outputs alone, or nothing. -/
def storesNothing : Instr → Bool
  | .dbSample _ _ => false
  | .scPoint _ => false
  | .scUndo => false
  | .scSetMode _ => false
  | .scSetFs _ => false
  | .iter _ => false
  | _ => true

theorem unwritten_of_storesNothing {i : Instr} {c : Component} (quiet : storesNothing i = true)
    (stored : isStored c = true) : writes i c = false := by
  cases c with
  | outputs u => cases stored
  | ind => cases stored
  | _ => cases i <;> simp_all [storesNothing, writes]

theorem readsAlike_of_storesNothing {i : Instr} {s t u v : State} (quiet : storesNothing i = true)
    (resp : u.resp = v.resp) (events : u.events = v.events) : ReadsAlike i s t u v :=
  ⟨resp, events, fun _ writing stored => absurd writing (by simp [unwritten_of_storesNothing quiet stored])⟩

/-! ## The operations -/

section Operations

variable {s t : State} (build : sameBuild s t)

include build

theorem sampledWindow_sameBuild {b : Button} (window : ofButton s.deb b = ofButton t.deb b) (raw : Bool) :
    sampledWindow s b raw = sampledWindow t b raw := by
  have mapped : mappedSample s.cfg b raw = mappedSample t.cfg b raw :=
    sameBuild_congr build (mappedSample · b raw) fun _ _ => rfl
  rw [sampledWindow, sampledWindow, mapped, window]

theorem dbSample_readsAlike {b : Button} (raw : Bool) (window : ofButton s.deb b = ofButton t.deb b) :
    alike (ReadsAlike (.dbSample b raw) s t) (exec (.dbSample b raw) s) (exec (.dbSample b raw) t) := by
  rw [exec_dbSample_sampledState, exec_dbSample_sampledState]
  have same := sampledWindow_sameBuild build window raw
  have after : ofButton (sampledState b raw s).deb b = ofButton (sampledState b raw t).deb b := by
    rw [sampledState_window, sampledState_window, same]
  refine ⟨by rw [sampledState_resp, sampledState_resp, same], rfl, fun c writing stored _ => ?_⟩
  cases c with
  | slot d =>
    obtain rfl : b = d := by simpa [writes] using writing
    simp [agreeOn, after]
  | ctr d =>
    obtain rfl : b = d := by simpa [writes] using writing
    simp [agreeOn, after]
  | latched d =>
    obtain rfl : b = d := by simpa [writes] using writing
    simp [agreeOn, after]
  | _ => cases writing

theorem rndCustom_readsAlike (u : Display) (pattern : Byte) (digit : Nat) :
    alike (ReadsAlike (.rndCustom u pattern digit) s t) (exec (.rndCustom u pattern digit) s)
      (exec (.rndCustom u pattern digit) t) := by
  have count : digitCount s.cfg u = digitCount t.cfg u := sameBuild_congr build (digitCount · u) fun _ _ => rfl
  have bound : s.cfg.customBound = t.cfg.customBound :=
    sameBuild_congr build Config.customBound fun _ _ => rfl
  have reading : s.cfg.boundaryReading = t.cfg.boundaryReading :=
    sameBuild_congr build Config.boundaryReading fun _ _ => rfl
  simp only [exec, execRndCustom, count, bound, reading]
  split
  · split
    · exact readsAlike_of_storesNothing rfl rfl
        ((driveDigit_events u digit pattern (begin s)).trans (driveDigit_events u digit pattern (begin t)).symm)
    · cases t.cfg.boundaryReading with
      | hardware => exact readsAlike_of_storesNothing rfl rfl rfl
      | refuse => exact rfl
  · exact readsAlike_of_storesNothing rfl rfl rfl

theorem scPoint_readsAlike (p : Player) (game : s.game = t.game) (history : s.history = t.history) :
    alike (ReadsAlike (.scPoint p) s t) (exec (.scPoint p) s) (exec (.scPoint p) t) := by
  have award : pointAwarded s.cfg p s.game = pointAwarded t.cfg p t.game := by
    rw [game]
    exact sameBuild_congr build (pointAwarded · p t.game) fun _ _ => rfl
  cases e : pointAwarded t.cfg p t.game with
  | error r =>
    rw [exec_scPoint_of_error (award.trans e), exec_scPoint_of_error e]
    exact rfl
  | ok g =>
    rw [exec_scPoint_of_ok (award.trans e), exec_scPoint_of_ok e]
    refine ⟨rfl, rfl, fun c writing _ _ => ?_⟩
    cases c with
    | score => rfl
    | games => rfl
    | hist => simp only [agreeOn, history, game]
    | _ => cases writing

end Operations

theorem renderNumber_events_congr (u : Display) (base : Radix) (value : Nat) (dp : Option Nat) {s t : State}
    (cfg : s.cfg = t.cfg) (events : s.events = t.events) :
    (renderNumber u base value dp s).events = (renderNumber u base value dp t).events := by
  rw [renderNumber_events, renderNumber_events, cfg, events]

theorem rndDec_readsAlike (u : Display) (value : Nat) (dp : Option Nat) {s t : State} (cfg : s.cfg = t.cfg) :
    alike (ReadsAlike (.rndDec u value dp) s t) (exec (.rndDec u value dp) s) (exec (.rndDec u value dp) t) := by
  simp only [exec, execRndDec, cfg]
  exact readsAlike_of_storesNothing rfl rfl
    (renderNumber_events_congr u .dec _ dp (s := begin s) (t := begin t) cfg rfl)

theorem rndHex_readsAlike (u : Display) (value : Nat) (dp : Option Nat) {s t : State} (cfg : s.cfg = t.cfg) :
    alike (ReadsAlike (.rndHex u value dp) s t) (exec (.rndHex u value dp) s) (exec (.rndHex u value dp) t) := by
  simp only [exec, execRndHex, cfg]
  exact readsAlike_of_storesNothing rfl rfl
    (renderNumber_events_congr u .hex _ dp (s := begin s) (t := begin t) cfg rfl)

theorem scUndo_readsAlike {s t : State} (history : s.history = t.history) :
    alike (ReadsAlike .scUndo s t) (exec .scUndo s) (exec .scUndo t) := by
  obtain empty | ⟨older, g, newest⟩ := List.eq_nil_or_concat t.history
  · rw [exec_scUndo_nil (history.trans empty), exec_scUndo_nil empty]
    exact ⟨rfl, rfl, fun c _ _ agree => agreeOn_trans (agreeOn_symm (agreeOn_answered s _ _ c))
      (agreeOn_trans agree (agreeOn_answered t _ _ c))⟩
  · rw [List.concat_eq_append] at newest
    rw [exec_scUndo_append (history.trans newest), exec_scUndo_append newest]
    refine ⟨rfl, rfl, fun c writing _ _ => ?_⟩
    cases c with
    | score => rfl
    | games => rfl
    | firstServe => rfl
    | mode => rfl
    | hist => rfl
    | _ => cases writing

theorem scSetMode_readsAlike (m : Mode) {s t : State} (score : s.game.score = t.game.score) :
    alike (ReadsAlike (.scSetMode m) s t) (exec (.scSetMode m) s) (exec (.scSetMode m) t) := by
  rw [exec_scSetMode, exec_scSetMode, score]
  refine ⟨rfl, rfl, fun c writing _ agree => ?_⟩
  cases c with
  | mode =>
    simp only [agreeOn] at agree ⊢
    split
    · rfl
    · exact agree
  | _ => cases writing

theorem scSetFs_readsAlike (p : Player) {s t : State} (score : s.game.score = t.game.score) :
    alike (ReadsAlike (.scSetFs p) s t) (exec (.scSetFs p) s) (exec (.scSetFs p) t) := by
  rw [exec_scSetFs, exec_scSetFs, score]
  refine ⟨rfl, rfl, fun c writing _ agree => ?_⟩
  cases c with
  | firstServe =>
    simp only [agreeOn] at agree ⊢
    split
    · rfl
    · exact agree
  | _ => cases writing

/-- R174, R175: the server does not depend on the games won. -/
theorem server_congr {g h : GameState} (score : g.score = h.score) (firstServe : g.firstServe = h.firstServe)
    (mode : g.mode = h.mode) : server g = server h := by
  simp only [server_eq, serveInterval_eq, score, firstServe, mode]

theorem refreshOutputs_events_congr {s t : State} (cfg : s.cfg = t.cfg) (game : s.game = t.game)
    (events : s.events = t.events) : (refreshOutputs s).events = (refreshOutputs t).events := by
  rw [refreshOutputs_events, refreshOutputs_events, cfg, game, events]

theorem refresh_readsAlike {s t : State} (cfg : s.cfg = t.cfg) (game : s.game = t.game) :
    alike (ReadsAlike .refresh s t) (exec .refresh s) (exec .refresh t) :=
  readsAlike_of_storesNothing rfl rfl (refreshOutputs_events_congr (s := begin s) (t := begin t) cfg game rfl)

theorem iter_readsAlike (raw : BitVec 5) {s t : State} (cfg : s.cfg = t.cfg)
    (windows : ∀ b, ofButton s.deb b = ofButton t.deb b) (game : s.game = t.game) (history : s.history = t.history) :
    alike (ReadsAlike (.iter raw) s t) (exec (.iter raw) s) (exec (.iter raw) t) := by
  have deb : s.deb = t.deb := perButton_ext windows
  have sampled : (sampleAll (rawSamples raw) (begin s)).1.deb = (sampleAll (rawSamples raw) (begin t)).1.deb := by
    refine perButton_ext fun b => ?_
    rw [sampleAll_window, sampleAll_window, sampledWindow, sampledWindow]
    simp only [begin_cfg, begin_deb, cfg, deb]
  have trig : iterTriggers raw s = iterTriggers raw t := by
    refine perButton_ext fun b => ?_
    rw [ofButton_iterTriggers, ofButton_iterTriggers, sampledWindow, sampledWindow, cfg, deb]
  rw [execIter_eq, execIter_eq, triggered_eq, triggered_eq, applied_eq, applied_eq, trig, cfg]
  generalize handledButtons t.cfg.eventPolicy (iterTriggers raw t) = bs
  have same : SameEngine (sampleAll (rawSamples raw) (begin s)).1 (sampleAll (rawSamples raw) (begin t)).1 :=
    ⟨cfg, game, history⟩
  have events := handleAll_alike bs same
  cases hu : handleAll bs (sampleAll (rawSamples raw) (begin s)).1 with
  | fault f => cases f
  | refused r =>
    rw [hu] at events
    cases hv : handleAll bs (sampleAll (rawSamples raw) (begin t)).1 with
    | next v => rw [hv] at events; exact events.elim
    | fault f => cases f
    | refused r' => rw [hv] at events; exact events
  | next u =>
    rw [hu] at events
    obtain ⟨v, hv, cfg', game', history'⟩ := alike_next events
    have keptU := handleAll_keeps hu
    have keptV := handleAll_keeps hv
    have deb' : u.deb = v.deb := by rw [keptU, keptV]; exact sampled
    have silent : u.events = v.events := by rw [keptU, keptV]; rfl
    rw [hv]
    refine ⟨rfl, ?_, fun c _ stored _ => ?_⟩
    · exact refreshOutputs_events_congr cfg' game' silent
    · cases c with
      | outputs w => cases stored
      | ind => cases stored
      | _ => simp [agreeOn, cfg', deb', game', history']

/-- Settles O52, operation by operation: from what it is listed as reading, its answer, its events and what it
stores. -/
theorem onlyListedStateIsRead : Obligations.OnlyListedStateIsRead := by
  unfold Obligations.OnlyListedStateIsRead
  intro i s t build agree
  apply alike_of_readsAlike
  have window (b : Button) (slot : reads i (.slot b) = true) (ctr : reads i (.ctr b) = true)
      (latched : reads i (.latched b) = true) : ofButton s.deb b = ofButton t.deb b :=
    window_eq_of_agreeOn (agree _ slot) (agree _ ctr) (agree _ latched)
  cases i with
  | nop => exact readsAlike_of_storesNothing rfl rfl rfl
  | dbSample b raw =>
    exact dbSample_readsAlike build raw (window b (by simp [reads]) (by simp [reads]) (by simp [reads]))
  | dbQuery b =>
    have latched : (ofButton s.deb b).latched = (ofButton t.deb b).latched := agree (.latched b) (by simp [reads])
    rw [exec_dbQuery, exec_dbQuery, latched]
    exact readsAlike_of_storesNothing rfl rfl rfl
  | segEnc d =>
    rw [exec_segEnc, exec_segEnc, cfg_eq_of_agreeOn build (agree .segTable rfl)]
    exact readsAlike_of_storesNothing rfl rfl rfl
  | rndDec u value dp => exact rndDec_readsAlike u value dp (cfg_eq_of_agreeOn build (agree .segTable rfl))
  | rndHex u value dp => exact rndHex_readsAlike u value dp (cfg_eq_of_agreeOn build (agree .segTable rfl))
  | rndCustom u pattern digit => exact rndCustom_readsAlike build u pattern digit
  | scServe =>
    rw [exec_scServe, exec_scServe,
      server_congr (agree .score rfl) (agree .firstServe rfl) (agree .mode rfl)]
    exact readsAlike_of_storesNothing rfl rfl rfl
  | scPoint p =>
    exact scPoint_readsAlike build p (game_eq_of_agreeOn (agree .score rfl) (agree .games rfl) (agree .firstServe rfl)
      (agree .mode rfl)) (agree .hist rfl)
  | scUndo => exact scUndo_readsAlike (agree .hist rfl)
  | scSetMode m => exact scSetMode_readsAlike m (agree .score rfl)
  | scSetFs p => exact scSetFs_readsAlike p (agree .score rfl)
  | iter raw =>
    exact iter_readsAlike raw (cfg_eq_of_agreeOn build (agree .segTable rfl)) (fun b => window b rfl rfl rfl)
      (game_eq_of_agreeOn (agree .score rfl) (agree .games rfl) (agree .firstServe rfl) (agree .mode rfl))
      (agree .hist rfl)
  | refresh =>
    exact refresh_readsAlike (cfg_eq_of_agreeOn build (agree .segTable rfl))
      (game_eq_of_agreeOn (agree .score rfl) (agree .games rfl) (agree .firstServe rfl) (agree .mode rfl))

end Sys2Proof.Proofs
